-- ==== Sys2Proof/Word.lean ====
section
/-! DEFINITION. Widths of GFCE: bytes, registers and addresses, command and response words. -/

namespace Sys2Proof

/-- One byte of sample memory (10_state.md R32). -/
abbrev Byte := BitVec 8

/-- A 32-bit register or address (`hw.addrW`, 00_scope.md R5 `ADDR_W`). -/
abbrev Word := BitVec 32

/-- A command or response word (`hw.cmdW`, 00_scope.md R5 `CMD_W`). -/
abbrev Packet := BitVec 64

end Sys2Proof
end

