-- ==== Sys2Proof/Config.lean ====
section
/-! DEFINITION. What a GFCE implementation fixes (00_scope.md R5), and the free value of the model.

The values this hardware takes stand in `Machine/Params.lean`. -/

namespace Sys2Proof

/-- A sample format (00_scope.md glossary, 20_memory.md R62). -/
inductive SampleFormat where
  | s16 | s24 | s32
  deriving DecidableEq, Repr

/-- Direction of the post-alignment of a shift-table row (42_datapath.md R170). -/
inductive Direction where
  | none | left | right
  deriving DecidableEq, Repr

/-- One row of `SHIFT_TABLE`, its five columns in the order of 00_scope.md R5 (42_datapath.md R170). The
row's source and sink formats are the pair the table is looked up with. -/
structure ShiftRow where
  /-- Pre-align shift. -/
  pre : Nat
  /-- Post-multiply shift. -/
  pms : Nat
  /-- Post-align shift. -/
  post : Nat
  /-- Direction of the post-align shift. -/
  dir : Direction
  /-- `Wk`: the sink width, to which step 5 narrows. -/
  sinkWidth : Nat
  deriving DecidableEq, Repr

/-- Order of a container's bytes along the ring (20_memory.md R61; parameter `BYTE_ORDER`). -/
inductive ByteOrder where
  | little | big
  deriving DecidableEq, Repr

/-- When a gain update reaches the datapath (parameter `GAIN_LATCH`; 92_eei_decisions.md D14 and
93_implementation_defined.md I3 name both). -/
inductive GainLatch where
  /-- At the acceptance of the next PROCESS: a sample step multiplies by `ACT[ch]`. -/
  | atProcess
  /-- From the next sample step on: a sample step multiplies by `SCALED[ch]`. -/
  | midPeriod
  deriving DecidableEq, Repr

/-- The parameters of 00_scope.md R5, one field each, in its order; `K` follows from two of them
(`Machine.rescaleFactor`). -/
structure Config.Params where
  /-- `MAX_CH`: the number of entries of the channel gain table (92_eei_decisions.md D10). -/
  maxCh : Nat
  /-- `VOL_MAX`: the largest legal gain, which means unity. -/
  volMax : Nat
  /-- `INT32_MAX`. -/
  int32Max : Nat
  /-- `GAIN_FRAC`: the fraction bits of the scaled multiplier. -/
  gainFrac : Nat
  /-- `SHIFT_TABLE`, looked up by (source format, sink format). -/
  shiftTable : SampleFormat → SampleFormat → ShiftRow
  /-- `ADDR_W`: the width in bits of an address and of every ring register (92_eei_decisions.md D11). -/
  addrW : Nat
  /-- `BYTE_ORDER`. -/
  byteOrder : ByteOrder
  /-- `GAIN_RESET`: the value of every gain entry after reset (92_eei_decisions.md D13). -/
  gainReset : Nat
  /-- `GAIN_LATCH`. -/
  gainLatch : GainLatch
  /-- `CMD_W`: the width in bits of a command word and of a response word (92_eei_decisions.md D16, D18). -/
  cmdW : Nat

/-- FREE VALUE (log 1): what the byte at an address holds when nothing has written it. "every byte
holds an arbitrary value until something writes it" (10_state.md R35). -/
opaque Config.powerOnByte : Nat → Byte

end Sys2Proof
end

