-- ==== Sys2Proof/Machine/Params.lean ====
section
/-! DEFINITION. The parameter values of this hardware (00_scope.md R5) and the two other parameter
sets the spec's vectors use (00_scope.md R6, 95_test_vectors.md sections 2.3 and 2.4). -/

namespace Sys2Proof.Machine

open Sys2Proof.Config (Params)

/-- `SHIFT_TABLE`, 42_datapath.md R170. -/
def shiftTable : SampleFormat → SampleFormat → ShiftRow
  | .s16, .s16 => ⟨16, 16, 0, .none, 16⟩
  | .s16, .s24 => ⟨16, 16, 8, .left, 24⟩
  | .s16, .s32 => ⟨16, 16, 16, .left, 32⟩
  | .s24, .s16 => ⟨8, 16, 0, .none, 16⟩
  | .s24, .s24 => ⟨8, 8, 0, .none, 24⟩
  | .s24, .s32 => ⟨8, 8, 8, .left, 32⟩
  | .s32, .s16 => ⟨0, 16, 0, .none, 16⟩
  | .s32, .s24 => ⟨0, 0, 8, .right, 24⟩
  | .s32, .s32 => ⟨0, 0, 0, .none, 32⟩

/-- The table as the document prints it: 90_conflicts.md C1 corrects its pre-align column. Not this
hardware's (95_test_vectors.md section 2.4). -/
def printedShiftTable : SampleFormat → SampleFormat → ShiftRow
  | .s16, .s16 => ⟨0, 16, 0, .none, 16⟩
  | .s16, .s24 => ⟨0, 16, 8, .left, 24⟩
  | .s16, .s32 => ⟨0, 16, 16, .left, 32⟩
  | .s24, .s16 => ⟨0, 16, 0, .none, 16⟩
  | .s24, .s24 => ⟨8, 8, 0, .none, 24⟩
  | .s24, .s32 => ⟨8, 8, 8, .left, 32⟩
  | .s32, .s16 => ⟨0, 16, 0, .none, 16⟩
  | .s32, .s24 => ⟨0, 0, 8, .right, 24⟩
  | .s32, .s32 => ⟨0, 0, 0, .none, 32⟩

/-- The parameters of this hardware (00_scope.md R5), an abbreviation because the gain registers of
`State` number `hw.maxCh`. The types `Word` and `Packet` are as wide as `addrW` and `cmdW` say
(`Laws.word_width`, `Laws.packet_width`). -/
abbrev hw : Params where
  maxCh := 8
  volMax := 2147483647
  int32Max := 2147483647
  gainFrac := 31
  shiftTable := shiftTable
  addrW := 32
  byteOrder := .little
  gainReset := 0
  gainLatch := .atProcess
  cmdW := 64

/-- The second parameter set of 95_test_vectors.md section 2.3. Not this hardware's (R6). -/
def secondInstance : Params := { hw with volMax := 65536 }

/-- This hardware with the printed table (95_test_vectors.md section 2.4). -/
def printedTable : Params := { hw with shiftTable := printedShiftTable }

/-- `K = INT32_MAX div VOL_MAX` (00_scope.md R5, 41_gain_table.md R142). -/
def rescaleFactor (p : Params) : Nat := p.int32Max / p.volMax

/-- The formats, in code order (30_encoding.md R93). -/
def allFormats : List SampleFormat := [.s16, .s24, .s32]

/-- The constraints of 00_scope.md R6 on the parameters. -/
def paramsOk (p : Params) : Bool :=
  1 ≤ p.volMax && p.volMax ≤ p.int32Max && 1 ≤ p.maxCh && p.maxCh ≤ 255
    && allFormats.all fun src => allFormats.all fun snk => p.gainFrac + (p.shiftTable src snk).pms ≤ 62

end Sys2Proof.Machine
end

