-- ==== Sys2Proof/Syntax.lean ====
section
/-! DEFINITION. The instructions of GFCE: the eleven commands of 30_encoding.md R92 and the nine
conversion routines of 30_encoding.md R99, and the two kinds of code that select them. -/

namespace Sys2Proof

/-- The command ports (30_encoding.md R100). -/
inductive Port where
  | cmd | cfg
  deriving DecidableEq, Repr

/-- One constructor per row of spec/opcode_table.json. Operands are the fields `A`, `B`, `IMM` of
30_encoding.md R90 "as they stand" (R91): an operand out of range is a well-formed command. -/
inductive Instr where
  /-- STRMCFG channels (44_dispatch_facade.md R210). -/
  | strmcfg (channels : BitVec 8)
  /-- STRMFREE (44_dispatch_facade.md R211). -/
  | strmfree
  /-- NEGOTIATE src, sink (44_dispatch_facade.md R212). -/
  | negotiate (src sink : BitVec 8)
  /-- PROCESS frames (44_dispatch_facade.md R214). -/
  | process (frames : Word)
  /-- CONFIGURE channel, gain (41_gain_table.md R140). -/
  | configure (ch : BitVec 8) (gain : Word)
  /-- RBSET ring, field, value (40_ring_buffer.md R120). -/
  | rbset (ring field : BitVec 8) (value : Word)
  /-- RBGET ring, field (40_ring_buffer.md R121). -/
  | rbget (ring field : BitVec 8)
  /-- RBADVR ring, n (40_ring_buffer.md R122). -/
  | rbadvr (ring : BitVec 8) (n : Word)
  /-- RBADVW ring, n (40_ring_buffer.md R123). -/
  | rbadvw (ring : BitVec 8) (n : Word)
  /-- GETST (44_dispatch_facade.md R217). -/
  | getst
  /-- GETGAIN channel, selector (41_gain_table.md R145). -/
  | getgain (ch sel : BitVec 8)
  /-- CONV.S16.S16 (43_conversion_routines.md R190). -/
  | convS16S16
  /-- CONV.S16.S24 (43_conversion_routines.md R191). -/
  | convS16S24
  /-- CONV.S16.S32 (43_conversion_routines.md R192). -/
  | convS16S32
  /-- CONV.S24.S16 (43_conversion_routines.md R193). -/
  | convS24S16
  /-- CONV.S24.S24 (43_conversion_routines.md R194). -/
  | convS24S24
  /-- CONV.S24.S32 (43_conversion_routines.md R195). -/
  | convS24S32
  /-- CONV.S32.S16 (43_conversion_routines.md R196). -/
  | convS32S16
  /-- CONV.S32.S24 (43_conversion_routines.md R197). -/
  | convS32S24
  /-- CONV.S32.S32 (43_conversion_routines.md R198). -/
  | convS32S32
  deriving DecidableEq, Repr

/-- What selects an instruction: a command word on a port (30_encoding.md R90), or the dispatch key
held in `ROUTINE` (30_encoding.md R99). -/
inductive Code where
  | word (w : Packet)
  | key (k : BitVec 4)
  deriving DecidableEq, Repr

/-- The mnemonics of 30_encoding.md R92 and R99. -/
def Instr.mnemonic : Instr → String
  | .strmcfg _ => "STRMCFG"
  | .strmfree => "STRMFREE"
  | .negotiate _ _ => "NEGOTIATE"
  | .process _ => "PROCESS"
  | .configure _ _ => "CONFIGURE"
  | .rbset _ _ _ => "RBSET"
  | .rbget _ _ => "RBGET"
  | .rbadvr _ _ => "RBADVR"
  | .rbadvw _ _ => "RBADVW"
  | .getst => "GETST"
  | .getgain _ _ => "GETGAIN"
  | .convS16S16 => "CONV.S16.S16"
  | .convS16S24 => "CONV.S16.S24"
  | .convS16S32 => "CONV.S16.S32"
  | .convS24S16 => "CONV.S24.S16"
  | .convS24S24 => "CONV.S24.S24"
  | .convS24S32 => "CONV.S24.S32"
  | .convS32S16 => "CONV.S32.S16"
  | .convS32S24 => "CONV.S32.S24"
  | .convS32S32 => "CONV.S32.S32"

/-- The routine the dispatch table gives a format pair (44_dispatch_facade.md R213). -/
def SampleFormat.routine : SampleFormat → SampleFormat → Instr
  | .s16, .s16 => .convS16S16
  | .s16, .s24 => .convS16S24
  | .s16, .s32 => .convS16S32
  | .s24, .s16 => .convS24S16
  | .s24, .s24 => .convS24S24
  | .s24, .s32 => .convS24S32
  | .s32, .s16 => .convS32S16
  | .s32, .s24 => .convS32S24
  | .s32, .s32 => .convS32S32

end Sys2Proof
end

