-- ==== Sys2Proof/WellFormed.lean ====
section
/-! DEFINITION. Well-formedness: which codes are legal (30_encoding.md R98, R99), and which
instructions a port may carry (30_encoding.md R100).

Every `Instr` is well formed by its type: each operand is as wide as its field. The checks are
therefore on codes, and are written from R98's list of reasons, apart from the decoder. -/

namespace Sys2Proof

/-- `OP`, bits 63:56 (30_encoding.md R90). -/
def Code.opOf (w : Packet) : BitVec 8 := w.extractLsb' 56 8
/-- `A`, bits 55:48. -/
def Code.aOf (w : Packet) : BitVec 8 := w.extractLsb' 48 8
/-- `B`, bits 47:40. -/
def Code.bOf (w : Packet) : BitVec 8 := w.extractLsb' 40 8
/-- `RSV`, bits 39:32. -/
def Code.rsvOf (w : Packet) : BitVec 8 := w.extractLsb' 32 8
/-- `IMM`, bits 31:0. -/
def Code.immOf (w : Packet) : Word := w.extractLsb' 0 32

/-- Check 1 of R98: `OP` is one of 0x01 to 0x0B. -/
def Code.opDefined (w : Packet) : Bool := 1 ≤ (Code.opOf w).toNat && (Code.opOf w).toNat ≤ 0x0B

/-- Check 2 of R98: `RSV` is 0. -/
def Code.rsvZero (w : Packet) : Bool := Code.rsvOf w == 0

/-- Does the command with this opcode use `A`? (the `A` column of R92) -/
def Code.usesA (op : Nat) : Bool := op ∈ [1, 3, 5, 6, 7, 8, 9, 0x0B]
/-- Does the command with this opcode use `B`? (the `B` column of R92) -/
def Code.usesB (op : Nat) : Bool := op ∈ [3, 6, 7, 0x0B]
/-- Does the command with this opcode use `IMM`? (the `IMM` column of R92) -/
def Code.usesImm (op : Nat) : Bool := op ∈ [4, 5, 6, 8, 9]

/-- Check 3 of R98: every field the command does not use is 0. -/
def Code.unusedZero (w : Packet) : Bool :=
  let op := (Code.opOf w).toNat
  (Code.usesA op || Code.aOf w == 0) && (Code.usesB op || Code.bOf w == 0)
    && (Code.usesImm op || Code.immOf w == 0)

/-- Check 4, for dispatch keys: "Values 9 to 15 name no routine" (R99). -/
def Code.keyNamesRoutine (k : BitVec 4) : Bool := k.toNat ≤ 8

/-- A legal command word (R98), or a dispatch key that names a routine (R99). -/
def Code.wellFormed : Code → Bool
  | .word w => Code.opDefined w && Code.rsvZero w && Code.unusedZero w
  | .key k => Code.keyNamesRoutine k

/-- Check 5: may this instruction be presented on this port? Every command on CMD, CONFIGURE only on
CFG (R100); a routine is no command word (R99). -/
def Instr.allowedOn : Port → Instr → Bool
  | _, .configure _ _ => true
  | .cmd, .strmcfg _ => true
  | .cmd, .strmfree => true
  | .cmd, .negotiate _ _ => true
  | .cmd, .process _ => true
  | .cmd, .rbset _ _ _ => true
  | .cmd, .rbget _ _ => true
  | .cmd, .rbadvr _ _ => true
  | .cmd, .rbadvw _ _ => true
  | .cmd, .getst => true
  | .cmd, .getgain _ _ => true
  | .cfg, .strmcfg _ => false
  | .cfg, .strmfree => false
  | .cfg, .negotiate _ _ => false
  | .cfg, .process _ => false
  | .cfg, .rbset _ _ _ => false
  | .cfg, .rbget _ _ => false
  | .cfg, .rbadvr _ _ => false
  | .cfg, .rbadvw _ _ => false
  | .cfg, .getst => false
  | .cfg, .getgain _ _ => false
  | _, .convS16S16 => false
  | _, .convS16S24 => false
  | _, .convS16S32 => false
  | _, .convS24S16 => false
  | _, .convS24S24 => false
  | _, .convS24S32 => false
  | _, .convS32S16 => false
  | _, .convS32S24 => false
  | _, .convS32S32 => false

end Sys2Proof
end

