-- ==== Sys2Proof/Decode.lean ====
section
/-! DEFINITION. The decoder, total on every code (30_encoding.md R98), the encoder, and the host's
entry `decodeTableWord`. -/

namespace Sys2Proof

/-- `some i` if the field is 0, as a command that does not use the field asks (30_encoding.md R98). -/
def ifZero {n : Nat} (field : BitVec n) (i : Option Instr) : Option Instr :=
  if field = 0 then i else none

/-- The opcode map of 30_encoding.md R92, on the fields `A`, `B`, `IMM` of a word whose `RSV` is 0. -/
def decodeFields (op a b : BitVec 8) (imm : Word) : Option Instr :=
  match op.toNat with
  | 0x01 => ifZero b (ifZero imm (some (.strmcfg a)))
  | 0x02 => ifZero a (ifZero b (ifZero imm (some .strmfree)))
  | 0x03 => ifZero imm (some (.negotiate a b))
  | 0x04 => ifZero a (ifZero b (some (.process imm)))
  | 0x05 => ifZero b (some (.configure a imm))
  | 0x06 => some (.rbset a b imm)
  | 0x07 => ifZero imm (some (.rbget a b))
  | 0x08 => ifZero b (some (.rbadvr a imm))
  | 0x09 => ifZero b (some (.rbadvw a imm))
  | 0x0A => ifZero a (ifZero b (ifZero imm (some .getst)))
  | 0x0B => ifZero imm (some (.getgain a b))
  | _ => none

/-- A command word (30_encoding.md R90, R92, R98). -/
def decodeWord (w : Packet) : Option Instr :=
  ifZero (w.extractLsb' 32 8)
    (decodeFields (w.extractLsb' 56 8) (w.extractLsb' 48 8) (w.extractLsb' 40 8) (w.extractLsb' 0 32))

/-- The dispatch key in `ROUTINE` (30_encoding.md R99, 44_dispatch_facade.md R213). -/
def decodeKey (k : BitVec 4) : Option Instr :=
  match k.toNat with
  | 0 => some .convS16S16
  | 1 => some .convS16S24
  | 2 => some .convS16S32
  | 3 => some .convS24S16
  | 4 => some .convS24S24
  | 5 => some .convS24S32
  | 6 => some .convS32S16
  | 7 => some .convS32S24
  | 8 => some .convS32S32
  | _ => none

/-- The instruction a code selects; `none` is an illegal word (R98) or a key that names no routine (R99). -/
def decode : Code → Option Instr
  | .word w => decodeWord w
  | .key k => decodeKey k

/-- The fields of format C put together, `RSV` = 0 (30_encoding.md R90). -/
def packWord (op a b : BitVec 8) (imm : Word) : Packet := op ++ a ++ b ++ 0#8 ++ imm

/-- The code of an instruction: the command words of 30_encoding.md R92, the keys of R99. -/
def encode : Instr → Code
  | .strmcfg a => .word (packWord 0x01#8 a 0 0)
  | .strmfree => .word (packWord 0x02#8 0 0 0)
  | .negotiate a b => .word (packWord 0x03#8 a b 0)
  | .process imm => .word (packWord 0x04#8 0 0 imm)
  | .configure a imm => .word (packWord 0x05#8 a 0 imm)
  | .rbset a b imm => .word (packWord 0x06#8 a b imm)
  | .rbget a b => .word (packWord 0x07#8 a b 0)
  | .rbadvr a imm => .word (packWord 0x08#8 a 0 imm)
  | .rbadvw a imm => .word (packWord 0x09#8 a 0 imm)
  | .getst => .word (packWord 0x0A#8 0 0 0)
  | .getgain a b => .word (packWord 0x0B#8 a b 0)
  | .convS16S16 => .key 0#4
  | .convS16S24 => .key 1#4
  | .convS16S32 => .key 2#4
  | .convS24S16 => .key 3#4
  | .convS24S24 => .key 4#4
  | .convS24S32 => .key 5#4
  | .convS32S16 => .key 6#4
  | .convS32S24 => .key 7#4
  | .convS32S32 => .key 8#4

/-- The code a row of spec/opcode_table.json spells: a row of at most one byte is a dispatch key
(format DISPATCH, 4 bits), every other row a command word (format C, 64 bits). A number with a bit
above the code's width spells nothing. -/
def tableCode (nbits w : Nat) : Option Code :=
  if nbits ≤ 8 then
    if w < 16 then some (.key (BitVec.ofNat 4 w)) else none
  else
    if w < 2 ^ Machine.hw.cmdW then some (.word (BitVec.ofNat 64 w)) else none

/-- The instruction the decoder reads from the bits of a row of spec/opcode_table.json. -/
def decodeTableWord (nbits w : Nat) : Option Instr := (tableCode nbits w).bind decode

end Sys2Proof
end

