-- ==== Sys2Proof/Machine/State.lean ====
section
/-! DEFINITION. The state of GFCE (10_state.md R20), what stands at its ports, its state after reset
(R35), and the reasons a step can stop. -/

namespace Sys2Proof.Machine

/-- A ring descriptor, 10_state.md R27. -/
structure Ring where
  /-- `ADDR`: the first byte address of the region. -/
  addr : Word
  /-- `END`: one past the last byte address of the region. -/
  endAddr : Word
  /-- `RPTR`: the read cursor. -/
  rptr : Word
  /-- `WPTR`: the write cursor. -/
  wptr : Word
  deriving DecidableEq, Repr

/-- The sample memory (10_state.md R32): the bytes written so far, as (address, byte) pairs. An
address not listed has no written value; see `Memory.byte` (log 1). -/
abbrev Memory := List Host.Cell

/-- The canonical form: addresses strictly rising, each below `2 ^ ADDR_W`. An address not listed reads as
no written value, so no entry can equal it. -/
def Memory.wf : Memory → Bool
  | [] => true
  | [(a, _)] => a < 2 ^ hw.addrW
  | (a, _) :: (a', b') :: m => a < a' && Memory.wf ((a', b') :: m)

/-- What an agent does with its turn (00_scope.md R12). -/
inductive Turn where
  /-- The engine, or the acceptance of a held CMD word when the engine is idle. -/
  | machine
  /-- The host presents a word on CMD (30_encoding.md R100). -/
  | cmd (w : Packet)
  /-- The configuration agent presents a word on CFG (30_encoding.md R100). -/
  | cfg (w : Packet)
  /-- A stream peer writes a byte of sample memory. -/
  | peerWrite (a : Word) (b : Byte)
  /-- A stream peer reads a byte of sample memory. -/
  | peerRead (a : Word)
  /-- The reset input (70_reset_and_hazards.md R270). -/
  | reset
  deriving DecidableEq, Repr

/-- The whole state. The fields up to `mem` are 10_state.md R20; `port` to `turns` are the model's
own, what stands at the ports between two steps (logs 5, 6, 7). -/
structure State where
  /-- `GAIN[ch]`, R21. -/
  gain : Vector Word hw.maxCh
  /-- `SCALED[ch]`, R22. -/
  scaled : Vector Word hw.maxCh
  /-- `ACT[ch]`, R23. -/
  act : Vector Word hw.maxCh
  /-- `CHANNELS`, R24. -/
  channels : BitVec 8
  /-- `SRC_FMT`, R25. -/
  srcFmt : BitVec 2
  /-- `SINK_FMT`, R25. -/
  sinkFmt : BitVec 2
  /-- `RESOLVED`, R26. -/
  resolved : Bool
  /-- `ROUTINE`, R26. -/
  routine : BitVec 4
  /-- `RING[0]`, R27. -/
  ringSrc : Ring
  /-- `RING[1]`, R27. -/
  ringSnk : Ring
  /-- `BUSY`, R29. -/
  busy : Bool
  /-- `FRAMES`, R29. -/
  frames : Word
  /-- `FRAME_IDX`, R29. -/
  frameIdx : Word
  /-- `CH_IDX`, R29. -/
  chIdx : BitVec 8
  /-- The sample memory, R32. -/
  mem : Memory
  /-- The port the command being executed came from (00_scope.md R11). -/
  port : Port
  /-- Words presented on CMD and not yet accepted, oldest first (30_encoding.md R100). -/
  cmdHeld : List Packet
  /-- Responses returned on CMD, oldest first (30_encoding.md R96). -/
  cmdOut : List Packet
  /-- Responses returned on CFG, oldest first. -/
  cfgOut : List Packet
  /-- What the agents do next; when nothing is listed the machine moves. -/
  turns : List Turn
  deriving DecidableEq, Repr

/-- Why a step stops with a fault. No rule of the spec reaches any of them: each is a state in which
no rule gives a next step, and a state that meets `Safety.Invariant` never faults (log 9). -/
inductive Fault where
  /-- Raised by the engine when a sample step is due and `ROUTINE` holds 9 to 15, which "name no
  routine and are never stored" (R99). Safe: the model stops where no rule applies. -/
  | noRoutine
  /-- Raised by a conversion routine when `CH_IDX` names no channel of the gain table (R29 keeps it
  below `CHANNELS`). Safe. -/
  | noChannel
  /-- Raised by the engine when `FRAME_IDX` is above `FRAMES` with channels to process: neither R215
  nor R216 applies (R29 keeps it at most `FRAMES`). Safe. -/
  | noFrame
  deriving DecidableEq, Repr

/-- Why a step is refused. -/
inductive Refusal where
  /-- Raised by `exec` for an instruction that has no meaning in the model. Safe. No arm answers it. -/
  | notModelled (mnemonic : String)
  /-- Raised by a peer's access to a window of the period in flight: "runs in which another agent
  writes the source window or accesses the sink window between acceptance and response of a PROCESS
  are not legal runs" (93_implementation_defined.md U2). Safe (log 8). -/
  | foreignWindowAccess (a : Word)
  deriving DecidableEq, Repr

/-- A ring descriptor after reset (10_state.md R35): invalid. -/
def Ring.reset : Ring := ⟨0, 0, 0, 0⟩

/-- The state after reset at power-up (10_state.md R35). `ROUTINE`, `FRAMES`, `FRAME_IDX` and `CH_IDX`
are "unspecified, unobservable" there: 0 is the model's choice (logs 2, 3). -/
def State.reset : State where
  gain := Vector.replicate _ (BitVec.ofNat 32 hw.gainReset)
  scaled := Vector.replicate _ (BitVec.ofNat 32 (hw.gainReset * rescaleFactor hw))
  act := Vector.replicate _ 0
  channels := 0
  srcFmt := 0
  sinkFmt := 0
  resolved := false
  routine := 0
  ringSrc := Ring.reset
  ringSnk := Ring.reset
  busy := false
  frames := 0
  frameIdx := 0
  chIdx := 0
  mem := []
  port := .cmd
  cmdHeld := []
  cmdOut := []
  cfgOut := []
  turns := []

end Sys2Proof.Machine
end

