-- ==== Sys2Proof/Machine/Operands.lean ====
section
/-! DEFINITION. Operand forms: what the small operands `A` and `B` name (30_encoding.md R93 to R95),
and the sample containers of the three formats (20_memory.md R62). -/

namespace Sys2Proof.Machine

/-- Which ring a ring selector names: 0 `RING[0]`, 1 `RING[1]` (30_encoding.md R94). -/
inductive RingSel where
  | source | sink
  deriving DecidableEq, Repr

/-- Which field a ring field selector names (30_encoding.md R94). -/
inductive RingField where
  | addr | endAddr | rptr | wptr
  deriving DecidableEq, Repr

/-- Which register file a gain selector names (30_encoding.md R95). -/
inductive GainSel where
  | gain | scaled | act
  deriving DecidableEq, Repr

/-- Ring selector, 30_encoding.md R94: 2 to 255 are out of range. -/
def ringSel (a : BitVec 8) : Option RingSel :=
  match a.toNat with
  | 0 => some .source
  | 1 => some .sink
  | _ => none

/-- Ring field selector, 30_encoding.md R94: 4 to 255 are out of range. -/
def ringField (b : BitVec 8) : Option RingField :=
  match b.toNat with
  | 0 => some .addr
  | 1 => some .endAddr
  | 2 => some .rptr
  | 3 => some .wptr
  | _ => none

/-- Gain selector, 30_encoding.md R95: 3 to 255 are out of range. -/
def gainSel (b : BitVec 8) : Option GainSel :=
  match b.toNat with
  | 0 => some .gain
  | 1 => some .scaled
  | 2 => some .act
  | _ => none

/-- Channel index, 30_encoding.md R95: `MAX_CH` to 255 are out of range. -/
def channelIndex (a : BitVec 8) : Option (Fin hw.maxCh) :=
  if h : a.toNat < hw.maxCh then some ⟨a.toNat, h⟩ else none

/-- Sample format code, 30_encoding.md R93: 3 to 255 name no supported format. -/
def formatOf (c : Nat) : Option SampleFormat :=
  match c with
  | 0 => some .s16
  | 1 => some .s24
  | 2 => some .s32
  | _ => none

/-- The code of a format (30_encoding.md R93). -/
def formatCode : SampleFormat → Nat
  | .s16 => 0
  | .s24 => 1
  | .s32 => 2

/-- `NB`: the bytes of a container (20_memory.md R62). -/
def containerBytes : SampleFormat → Nat
  | .s16 => 2
  | .s24 => 4
  | .s32 => 4

/-- `W`: the sample width (20_memory.md R62). -/
def sampleWidth : SampleFormat → Nat
  | .s16 => 16
  | .s24 => 24
  | .s32 => 32

/-- `sext_N`: the signed value of an N-bit pattern (00_scope.md R9). -/
def sext (n : Nat) (c : Nat) : Int := if c < 2 ^ (n - 1) then (c : Int) else (c : Int) - 2 ^ n

/-- `enc_N`: the N-bit two's-complement pattern of a value (00_scope.md R9). -/
def enc (n : Nat) (x : Int) : Nat := (x % 2 ^ n).toNat

/-- Sample value of a container: `sext_W(c[W-1:0])` (20_memory.md R62, 42_datapath.md R161). -/
def sampleOf (f : SampleFormat) (c : Nat) : Int := sext (sampleWidth f) (c % 2 ^ sampleWidth f)

/-- Container of a sample value, 20_memory.md R62: `enc_16` for S16, `enc_32` for S24 and S32, so the
top byte of an S24 container is eight copies of bit 23. -/
def containerOf (f : SampleFormat) (v : Int) : Nat := enc (8 * containerBytes f) v

/-- The `n` bytes of a container, least significant first (20_memory.md R61). -/
def leBytes : Nat → Nat → List Byte
  | 0, _ => []
  | n + 1, c => BitVec.ofNat 8 c :: leBytes n (c / 256)

/-- The container that bytes spell, least significant first (20_memory.md R61). -/
def leValue : List Byte → Nat
  | [] => 0
  | b :: bs => b.toNat + 256 * leValue bs

/-- The bytes of a container in ring order. -/
def bytesOf (o : ByteOrder) (n : Nat) (c : Nat) : List Byte :=
  match o with
  | .little => leBytes n c
  | .big => (leBytes n c).reverse

/-- The container that bytes in ring order spell. -/
def valueOf (o : ByteOrder) (bs : List Byte) : Nat :=
  match o with
  | .little => leValue bs
  | .big => leValue bs.reverse

end Sys2Proof.Machine
end

