-- ==== Sys2Proof/Machine/Datapath.lean ====
section
/-! DEFINITION. The sample datapath of 42_datapath.md, exact over the integers (00_scope.md R8), and
the gain arithmetic of 41_gain_table.md. -/

namespace Sys2Proof.Machine

open Sys2Proof.Config (Params)

/-- `wrap32(x) = sext_32(x mod 2^32)` (00_scope.md R9). -/
def wrap32 (x : Int) : Int := sext 32 (x % 2 ^ 32).toNat

/-- `sat_N` (00_scope.md R9). -/
def sat (n : Nat) (x : Int) : Int :=
  if x < -2 ^ (n - 1) then -2 ^ (n - 1) else if 2 ^ (n - 1) - 1 < x then 2 ^ (n - 1) - 1 else x

/-- `rnd(P, T)`: shift right by `T`, rounding half away from zero (00_scope.md R9). `/` on the
integers by a positive number rounds down, as `>>` does (R8). -/
def rnd (p : Int) (t : Nat) : Int :=
  if t = 0 then p
  else if 0 ≤ p then (p + 2 ^ (t - 1)) / 2 ^ t
  else -((-p + 2 ^ (t - 1)) / 2 ^ t)

/-- Step 2, the working value (42_datapath.md R162). -/
def preAlign (row : ShiftRow) (x : Int) : Int := wrap32 (x * 2 ^ row.pre)

/-- Step 3, multiply, round and return to the working domain (42_datapath.md R163 to R165). -/
def applyGain (gainFrac : Nat) (row : ShiftRow) (w : Int) (m : Nat) : Int :=
  sat 32 (rnd (w * m) (gainFrac + row.pms))

/-- Step 4, post-alignment (42_datapath.md R166). -/
def postAlign (row : ShiftRow) (r : Int) : Int :=
  match row.dir with
  | .right => rnd r row.post
  | .left => r * 2 ^ row.post
  | .none => r * 2 ^ row.post

/-- The whole conversion of one container, 42_datapath.md R169. -/
def conv (p : Params) (src snk : SampleFormat) (c : Nat) (m : Nat) : Int :=
  let row := p.shiftTable src snk
  sat row.sinkWidth (postAlign row (applyGain p.gainFrac row (preAlign row (sampleOf src c)) m))

/-- The clamp of a gain, 41_gain_table.md R141. -/
def clampGain (p : Params) (v : Word) : Nat := min v.toNat p.volMax

/-- The rescale of a clamped gain, 41_gain_table.md R142. -/
def rescaleGain (p : Params) (g : Nat) : Nat := g * rescaleFactor p

end Sys2Proof.Machine
end

