-- ==== Sys2Proof/Machine/Flags.lean ====
section
/-! DEFINITION. Result codes, the response word and the status word. GFCE has no arithmetic flags; its
status bits are `RESOLVED` and `BUSY` (10_state.md R30). -/

namespace Sys2Proof.Machine

/-- How a command can end (30_encoding.md R97, 60_exceptions.md R240). -/
inductive ResultCode where
  /-- `OK`. -/
  | ok
  /-- `ERR_UNSUPPORTED_FORMAT_PAIR` (60_exceptions.md R241). -/
  | unsupportedFormatPair
  /-- `ERR_NOT_RESOLVED` (60_exceptions.md R242). -/
  | notResolved
  /-- `ERR_BAD_COMMAND` (60_exceptions.md R243). -/
  | badCommand
  /-- `ERR_BAD_ARG` (60_exceptions.md R244). -/
  | badArg
  /-- `ERR_BAD_RING` (60_exceptions.md R245). -/
  | badRing
  deriving DecidableEq, Repr

/-- The code numbers of 30_encoding.md R97. -/
def codeNumber : ResultCode → BitVec 8
  | .ok => 0
  | .unsupportedFormatPair => 1
  | .notResolved => 2
  | .badCommand => 3
  | .badArg => 4
  | .badRing => 5

/-- The response word, 30_encoding.md R96: bits 63:40 = 0, 39:32 = `CODE`, 31:0 = `DATA`. -/
def responseWord (c : ResultCode) (data : Word) : Packet := 0#24 ++ codeNumber c ++ data

/-- The status word GETST returns, assembled as 10_state.md R30 says. -/
def statusWord (s : State) : Word :=
  0#8 ++ s.channels ++ 0#6 ++ s.sinkFmt ++ 0#2 ++ s.srcFmt ++ 0#3 ++ BitVec.ofBool s.resolved

end Sys2Proof.Machine
end

