-- ==== Sys2Proof/Machine/Ops.lean ====
section
/-! DEFINITION. The named operations over memory, rings and ports that the meanings share. -/

namespace Sys2Proof.Machine

open Sys2Proof.Config (Params)

/-! ### Memory -/

/-- The byte last written at an address, if any. -/
def Memory.read : Memory → Nat → Option Byte
  | [], _ => none
  | (k, b) :: m, a => if k = a then some b else Memory.read m a

/-- Write one byte, keeping the list sorted. -/
def Memory.write : Memory → Nat → Byte → Memory
  | [], a, b => [(a, b)]
  | (k, c) :: m, a, b =>
    if a < k then (a, b) :: (k, c) :: m
    else if a = k then (a, b) :: m
    else (k, c) :: Memory.write m a b

/-- `MemRead(addr, 1)` (00_scope.md R10). A byte nothing has written holds an arbitrary value, the
same at every read (10_state.md R35, 20_memory.md R68): the free value of log 1. -/
def Memory.byte (m : Memory) (a : Word) : Byte := (m.read a.toNat).getD (Config.powerOnByte a.toNat)

/-- `MemWrite(addr, 1, b)` (00_scope.md R10). -/
def Memory.store (m : Memory) (a : Word) (b : Byte) : Memory := m.write a.toNat b

/-! ### Rings -/

/-- `RingValid` (10_state.md R28). -/
def Ring.valid (r : Ring) : Bool :=
  r.addr < r.endAddr && r.addr ≤ r.rptr && r.rptr < r.endAddr && r.addr ≤ r.wptr && r.wptr < r.endAddr

/-- `RbAdvance` (20_memory.md R63): the cursor `cur` advanced by `k` bytes, without overflow. The
rule is for a valid ring and a cursor inside it; nothing uses it on another. -/
def Ring.advance (r : Ring) (cur : Word) (k : Nat) : Word :=
  BitVec.ofNat 32
    (r.addr.toNat + (cur.toNat - r.addr.toNat + k) % (r.endAddr.toNat - r.addr.toNat))

/-- Field `F` of a ring (00_scope.md R10). -/
def Ring.get (r : Ring) : RingField → Word
  | .addr => r.addr
  | .endAddr => r.endAddr
  | .rptr => r.rptr
  | .wptr => r.wptr

/-- Write field `F` of a ring (00_scope.md R10). -/
def Ring.set (r : Ring) (f : RingField) (v : Word) : Ring :=
  match f with
  | .addr => { r with addr := v }
  | .endAddr => { r with endAddr := v }
  | .rptr => { r with rptr := v }
  | .wptr => { r with wptr := v }

/-- `RING[r]`. -/
def State.ring (s : State) : RingSel → Ring
  | .source => s.ringSrc
  | .sink => s.ringSnk

/-- Write `RING[r]`. -/
def State.setRing (s : State) (r : RingSel) (v : Ring) : State :=
  match r with
  | .source => { s with ringSrc := v }
  | .sink => { s with ringSnk := v }

/-! ### Gain registers -/

/-- The register a GETGAIN names (41_gain_table.md R145). -/
def State.gainReg (s : State) (f : GainSel) (ch : Fin hw.maxCh) : Word :=
  match f with
  | .gain => s.gain[ch]
  | .scaled => s.scaled[ch]
  | .act => s.act[ch]

/-- The multiplier a sample step uses: `ACT[ch]`, or `SCALED[ch]` under the alternative of
92_eei_decisions.md D14. -/
def State.multiplier (p : Params) (s : State) (ch : Fin hw.maxCh) : Nat :=
  match p.gainLatch with
  | .atProcess => s.act[ch].toNat
  | .midPeriod => s.scaled[ch].toNat

/-! ### Responses -/

/-- The outcome of a meaning. -/
abbrev Result := Host.Outcome State Fault Refusal

/-- Return a response word on a port (30_encoding.md R96). -/
def State.respondOn (s : State) (p : Port) (c : ResultCode) (data : Word) : State :=
  match p with
  | .cmd => { s with cmdOut := s.cmdOut ++ [responseWord c data] }
  | .cfg => { s with cfgOut := s.cfgOut ++ [responseWord c data] }

/-- `respond(code, data)`: end the command with a response on the port it came from (00_scope.md R11). -/
def State.respond (s : State) (c : ResultCode) (data : Word) : State := s.respondOn s.port c data

/-- `raise <Error>`, the one way an exception is taken (00_scope.md R11, 60_exceptions.md R248): the
response carries the code and DATA = 0, and nothing else changes: nothing is saved and control goes
nowhere. There is no return from one (60_exceptions.md R249). -/
def State.raise (s : State) (c : ResultCode) : Result := .next (s.respond c 0)

/-- A command that succeeds without a value: `respond(OK, 0)`. -/
def State.done (s : State) : Result := .next (s.respond .ok 0)

/-- Check 1 of 60_exceptions.md R247 for a command that only the CMD port may carry: on the CFG port it
is answered `ERR_BAD_COMMAND` (30_encoding.md R100). -/
def State.onCmd (s : State) (body : Result) : Result :=
  match s.port with
  | .cmd => body
  | .cfg => s.raise .badCommand

/-! ### The sample step -/

/-- `RbRead(n)` (20_memory.md R64): the next `n` bytes of the source ring in ring order, the read
cursor advanced one byte at a time. -/
def State.rbRead : Nat → State → List Byte × State
  | 0, s => ([], s)
  | n + 1, s =>
    let b := s.mem.byte s.ringSrc.rptr
    let s1 := { s with ringSrc := { s.ringSrc with rptr := s.ringSrc.advance s.ringSrc.rptr 1 } }
    let (bs, s2) := State.rbRead n s1
    (b :: bs, s2)

/-- `RbWrite(n, c)` (20_memory.md R65) of the bytes of a container in ring order, the write cursor
advanced one byte at a time. -/
def State.rbWrite : List Byte → State → State
  | [], s => s
  | b :: bs, s =>
    State.rbWrite bs
      { s with
        mem := s.mem.store s.ringSnk.wptr b
        ringSnk := { s.ringSnk with wptr := s.ringSnk.advance s.ringSnk.wptr 1 } }

/-- The counters after a sample step (44_dispatch_facade.md R215): channel first, then frame. -/
def State.nextSample (s : State) : State :=
  if s.chIdx.toNat + 1 < s.channels.toNat then { s with chIdx := s.chIdx + 1 }
  else { s with chIdx := 0, frameIdx := s.frameIdx + 1 }

/-- `SampleStep(ch)` (42_datapath.md R160) with the row of a format pair. -/
def State.sampleStep (p : Params) (src snk : SampleFormat) (ch : Fin hw.maxCh) (s : State) : State :=
  let (bs, s1) := State.rbRead (containerBytes src) s
  let v := conv p src snk (valueOf p.byteOrder bs) (s1.multiplier p ch)
  State.rbWrite (bytesOf p.byteOrder (containerBytes snk) (containerOf snk v)) s1

/-- One step of a running period with the routine of a format pair (44_dispatch_facade.md R215): the
sample step of `CH_IDX`, then the counters. -/
def State.routineStep (p : Params) (src snk : SampleFormat) (s : State) : Result :=
  match channelIndex s.chIdx with
  | none => .fault .noChannel
  | some ch => .next (State.sampleStep p src snk ch s).nextSample

end Sys2Proof.Machine
end

