-- ==== Sys2Proof/Machine/Convert.lean ====
section
/-! DEFINITION. The nine conversion routines (43_conversion_routines.md): one execution is one step
of the loop of R199, as 44_dispatch_facade.md R215 sequences it. -/

namespace Sys2Proof.Machine

/-- CONV.S16.S16 (43_conversion_routines.md R190). -/
def execConvS16S16 (s : State) : Result := State.routineStep hw .s16 .s16 s

/-- CONV.S16.S24 (43_conversion_routines.md R191). -/
def execConvS16S24 (s : State) : Result := State.routineStep hw .s16 .s24 s

/-- CONV.S16.S32 (43_conversion_routines.md R192). -/
def execConvS16S32 (s : State) : Result := State.routineStep hw .s16 .s32 s

/-- CONV.S24.S16 (43_conversion_routines.md R193). -/
def execConvS24S16 (s : State) : Result := State.routineStep hw .s24 .s16 s

/-- CONV.S24.S24 (43_conversion_routines.md R194). -/
def execConvS24S24 (s : State) : Result := State.routineStep hw .s24 .s24 s

/-- CONV.S24.S32 (43_conversion_routines.md R195). -/
def execConvS24S32 (s : State) : Result := State.routineStep hw .s24 .s32 s

/-- CONV.S32.S16 (43_conversion_routines.md R196). -/
def execConvS32S16 (s : State) : Result := State.routineStep hw .s32 .s16 s

/-- CONV.S32.S24 (43_conversion_routines.md R197). -/
def execConvS32S24 (s : State) : Result := State.routineStep hw .s32 .s24 s

/-- CONV.S32.S32 (43_conversion_routines.md R198). -/
def execConvS32S32 (s : State) : Result := State.routineStep hw .s32 .s32 s

end Sys2Proof.Machine
end

