-- ==== Sys2Proof/Machine/GainTable.lean ====
section
/-! DEFINITION. The gain table commands CONFIGURE and GETGAIN (41_gain_table.md). -/

namespace Sys2Proof.Machine

/-- CONFIGURE channel, gain (41_gain_table.md R140): clamp (R141), rescale (R142), both registers in
one step (R143). Allowed on both ports; `ACT` is not written (R144). -/
def execConfigure (ch : BitVec 8) (gain : Word) (s : State) : Result :=
  match channelIndex ch with
  | none => s.raise .badArg
  | some i =>
    let g := clampGain hw gain
    { s with
      gain := s.gain.set i (BitVec.ofNat 32 g)
      scaled := s.scaled.set i (BitVec.ofNat 32 (rescaleGain hw g)) }.done

/-- GETGAIN channel, selector (41_gain_table.md R145). -/
def execGetgain (ch sel : BitVec 8) (s : State) : Result :=
  s.onCmd <|
    match channelIndex ch, gainSel sel with
    | some i, some f => .next (s.respond .ok (s.gainReg f i))
    | _, _ => s.raise .badArg

end Sys2Proof.Machine
end

