-- ==== Sys2Proof/Machine/RingCmd.lean ====
section
/-! DEFINITION. The ring buffer commands RBSET, RBGET, RBADVR and RBADVW (40_ring_buffer.md). -/

namespace Sys2Proof.Machine

/-- RBSET ring, field, value (40_ring_buffer.md R120): nothing is checked about the value. -/
def execRbset (ring field : BitVec 8) (value : Word) (s : State) : Result :=
  s.onCmd <|
    match ringSel ring, ringField field with
    | some r, some f => (s.setRing r ((s.ring r).set f value)).done
    | _, _ => s.raise .badArg

/-- RBGET ring, field (40_ring_buffer.md R121): `RingValid` is not checked. -/
def execRbget (ring field : BitVec 8) (s : State) : Result :=
  s.onCmd <|
    match ringSel ring, ringField field with
    | some r, some f => .next (s.respond .ok ((s.ring r).get f))
    | _, _ => s.raise .badArg

/-- Advance one cursor of a ring, as RBADVR and RBADVW do (40_ring_buffer.md R122, R123). -/
def State.advanceCursor (ring : BitVec 8) (cursor : RingField) (n : Word) (s : State) : Result :=
  match ringSel ring with
  | none => s.raise .badArg
  | some r =>
    if (s.ring r).valid = false then s.raise .badRing
    else
      (s.setRing r ((s.ring r).set cursor ((s.ring r).advance ((s.ring r).get cursor) n.toNat))).done

/-- RBADVR ring, n (40_ring_buffer.md R122). -/
def execRbadvr (ring : BitVec 8) (n : Word) (s : State) : Result :=
  s.onCmd <| State.advanceCursor ring .rptr n s

/-- RBADVW ring, n (40_ring_buffer.md R123). -/
def execRbadvw (ring : BitVec 8) (n : Word) (s : State) : Result :=
  s.onCmd <| State.advanceCursor ring .wptr n s

end Sys2Proof.Machine
end

