-- ==== Sys2Proof/Machine/Stream.lean ====
section
/-! DEFINITION. The stream commands STRMCFG, STRMFREE, NEGOTIATE, PROCESS and GETST, and the
completion of a period (44_dispatch_facade.md). -/

namespace Sys2Proof.Machine

/-- STRMCFG channels (44_dispatch_facade.md R210). -/
def execStrmcfg (channels : BitVec 8) (s : State) : Result :=
  s.onCmd <|
    if hw.maxCh < channels.toNat then s.raise .badArg
    else { s with channels := channels, resolved := false }.done

/-- STRMFREE (44_dispatch_facade.md R211). -/
def execStrmfree (s : State) : Result :=
  s.onCmd <| { s with channels := 0, resolved := false }.done

/-- NEGOTIATE src, sink (44_dispatch_facade.md R212): a failed one leaves the prior resolution. -/
def execNegotiate (src sink : BitVec 8) (s : State) : Result :=
  s.onCmd <|
    if (formatOf src.toNat).isNone || (formatOf sink.toNat).isNone then s.raise .unsupportedFormatPair
    else
      { s with
        srcFmt := src.setWidth 2
        sinkFmt := sink.setWidth 2
        routine := BitVec.ofNat 4 (3 * src.toNat + sink.toNat)
        resolved := true }.done

/-- PROCESS frames, its acceptance (44_dispatch_facade.md R214): the checks in the order of
60_exceptions.md R247, the gain latch (41_gain_table.md R144), the counters. No response yet. -/
def execProcess (frames : Word) (s : State) : Result :=
  s.onCmd <|
    if s.resolved = false then s.raise .notResolved
    else if s.ringSrc.valid = false ∨ s.ringSnk.valid = false then s.raise .badRing
    else
      .next
        { s with
          act := s.scaled
          frames := frames
          frameIdx := 0
          chIdx := 0
          busy := true }

/-- The completion of a period (44_dispatch_facade.md R216): the response to PROCESS, on CMD. -/
def State.completePeriod (s : State) : State := { s with busy := false }.respondOn .cmd .ok 0

/-- GETST (44_dispatch_facade.md R217). -/
def execGetst (s : State) : Result :=
  s.onCmd <| .next (s.respond .ok (statusWord s))

end Sys2Proof.Machine
end

