-- ==== Sys2Proof/Machine/Dispatch.lean ====
section
/-! DEFINITION. `exec`: the meaning of each instruction, one arm per constructor of `Instr`. A command
is executed in the step that accepts its word (the port rule of 30_encoding.md R100 is the
sequencer's, log 10); a routine is executed in the engine's sample steps. -/

namespace Sys2Proof.Machine

def exec (i : Instr) (s : State) : Host.Outcome State Fault Refusal :=
  match i with
  | .strmcfg channels => Sys2Proof.Machine.execStrmcfg channels s
  | .strmfree => Sys2Proof.Machine.execStrmfree s
  | .negotiate src sink => Sys2Proof.Machine.execNegotiate src sink s
  | .process frames => Sys2Proof.Machine.execProcess frames s
  | .configure ch gain => Sys2Proof.Machine.execConfigure ch gain s
  | .rbset ring field value => Sys2Proof.Machine.execRbset ring field value s
  | .rbget ring field => Sys2Proof.Machine.execRbget ring field s
  | .rbadvr ring n => Sys2Proof.Machine.execRbadvr ring n s
  | .rbadvw ring n => Sys2Proof.Machine.execRbadvw ring n s
  | .getst => Sys2Proof.Machine.execGetst s
  | .getgain ch sel => Sys2Proof.Machine.execGetgain ch sel s
  | .convS16S16 => Sys2Proof.Machine.execConvS16S16 s
  | .convS16S24 => Sys2Proof.Machine.execConvS16S24 s
  | .convS16S32 => Sys2Proof.Machine.execConvS16S32 s
  | .convS24S16 => Sys2Proof.Machine.execConvS24S16 s
  | .convS24S24 => Sys2Proof.Machine.execConvS24S24 s
  | .convS24S32 => Sys2Proof.Machine.execConvS24S32 s
  | .convS32S16 => Sys2Proof.Machine.execConvS32S16 s
  | .convS32S24 => Sys2Proof.Machine.execConvS32S24 s
  | .convS32S32 => Sys2Proof.Machine.execConvS32S32 s

end Sys2Proof.Machine
end

