-- ==== Sys2Proof/Machine/Sequencer.lean ====
section
/-! DEFINITION. What each agent's turn does (00_scope.md R12): the acceptance of a word on a port
(30_encoding.md R100), the engine's next step (44_dispatch_facade.md R215, R216), a peer's access and
the reset input; and how the host's codes reach the machine. -/

namespace Sys2Proof.Machine

/-- Accept a word on a port (30_encoding.md R100, 60_exceptions.md R247): an illegal word is answered
`ERR_BAD_COMMAND` (R98), a legal one is executed. -/
def State.accept (p : Port) (w : Packet) (s : State) : Result :=
  let s := { s with port := p }
  match decode (.word w) with
  | none => s.raise .badCommand
  | some i => exec i s

/-- The engine's next step while `BUSY` = 1: completion (44_dispatch_facade.md R216) when no sample is
left, else the routine that `ROUTINE` selects (R215, 30_encoding.md R99). -/
def State.engineStep (s : State) : Result :=
  if s.frameIdx = s.frames ∨ s.channels = 0 then .next s.completePeriod
  else if s.frames < s.frameIdx then .fault .noFrame
  else
    match decode (.key s.routine) with
    | none => .fault .noRoutine
    | some i => exec i s

/-- The machine's own move: the engine's step while `BUSY` = 1, else the acceptance of the oldest held
CMD word (30_encoding.md R100). With neither, the machine is quiescent and stays as it is
(70_reset_and_hazards.md R282). -/
def State.machineTurn (s : State) : Result :=
  if s.busy then s.engineStep
  else
    match s.cmdHeld with
    | [] => .next s
    | w :: rest => State.accept .cmd w { s with cmdHeld := rest }

/-- How many samples of the running period are done. -/
def State.samplesDone (s : State) : Nat := s.frameIdx.toNat * s.channels.toNat + s.chIdx.toNat

/-- How many samples the running period has. -/
def State.samplesTotal (s : State) : Nat := s.frames.toNat * s.channels.toNat

/-- Is `a` in a period's window on a ring: the `total` bytes, with wrap, from where the cursor stood
`done` bytes ago (20_memory.md R73)? -/
def Ring.inWindow (r : Ring) (cur : Word) (done total : Nat) (a : Word) : Bool :=
  let len := r.endAddr.toNat - r.addr.toNat
  let start := (cur.toNat - r.addr.toNat + (len - done % len)) % len
  r.addr ≤ a && a < r.endAddr && decide ((a.toNat - r.addr.toNat + (len - start)) % len < total)

/-- The bytes of a container of the format a register holds; code 3 is never stored (10_state.md R25). -/
def heldBytes (f : BitVec 2) : Nat := ((formatOf f.toNat).map containerBytes).getD 0

/-- Is `a` in the source window of the period in flight (20_memory.md R73)? -/
def State.inSourceWindow (s : State) (a : Word) : Bool :=
  s.busy && s.ringSrc.inWindow s.ringSrc.rptr (s.samplesDone * heldBytes s.srcFmt)
    (s.samplesTotal * heldBytes s.srcFmt) a

/-- Is `a` in the sink window of the period in flight (20_memory.md R73)? -/
def State.inSinkWindow (s : State) (a : Word) : Bool :=
  s.busy && s.ringSnk.inWindow s.ringSnk.wptr (s.samplesDone * heldBytes s.sinkFmt)
    (s.samplesTotal * heldBytes s.sinkFmt) a

/-- A peer writes a byte (00_scope.md R12). No legal run writes a byte of a window of the period in
flight (70_reset_and_hazards.md R274, 93_implementation_defined.md U2). -/
def State.peerWrite (a : Word) (b : Byte) (s : State) : Result :=
  if s.inSourceWindow a || s.inSinkWindow a then .refused (.foreignWindowAccess a)
  else .next { s with mem := s.mem.store a b }

/-- A peer reads a byte: reads have no side effect (20_memory.md R68). No legal run reads a byte of the
sink window of the period in flight (70_reset_and_hazards.md R274). -/
def State.peerRead (a : Word) (s : State) : Result :=
  if s.inSinkWindow a then .refused (.foreignWindowAccess a) else .next s

/-- The reset input (70_reset_and_hazards.md R270): every register as after power-up (10_state.md R35),
held words dropped without a response, sink bytes already written stay written. Memory keeps all it
holds (log 4); the responses already returned and the agents' further turns are outside the block. -/
def State.resetInput (s : State) : State :=
  { State.reset with mem := s.mem, cmdOut := s.cmdOut, cfgOut := s.cfgOut, turns := s.turns }

/-- One turn of one agent. -/
def State.takeTurn (t : Turn) (s : State) : Result :=
  match t with
  | .machine => s.machineTurn
  | .cmd w => .next { s with cmdHeld := s.cmdHeld ++ [w] }
  | .cfg w => State.accept .cfg w s
  | .peerWrite a b => State.peerWrite a b s
  | .peerRead a => State.peerRead a s
  | .reset => .next s.resetInput

/-- The next turn: the first one listed, or the machine's when none is. -/
def State.nextTurn (s : State) : Result :=
  match s.turns with
  | [] => s.machineTurn
  | t :: rest => State.takeTurn t { s with turns := rest }

/-- `r` if it is valid, else the 16-byte region at `base` with both cursors at its start. -/
def Ring.orRegion (r : Ring) (base : Word) : Ring :=
  if r.valid then r else ⟨base, base + 16, base, base⟩

/-- Put a code where the machine takes its next instruction from (log 12). A command word is presented
on CMD, first in line, with the engine idle. A dispatch key is put in `ROUTINE` with the formats it
stands for and a period in flight of which one sample is left: at least one channel and valid rings,
as a PROCESS would have found them. -/
def State.present (c : Code) (s : State) : State :=
  match c with
  | .word w =>
    { s with busy := false, cmdHeld := w :: s.cmdHeld, turns := .machine :: s.turns }
  | .key k =>
    { s with
      routine := k
      srcFmt := BitVec.ofNat 2 (k.toNat / 3)
      sinkFmt := BitVec.ofNat 2 (k.toNat % 3)
      resolved := true
      channels := if s.channels = 0 then 1 else s.channels
      ringSrc := s.ringSrc.orRegion 0
      ringSnk := s.ringSnk.orRegion 16
      busy := true
      frames := 1
      frameIdx := 0
      chIdx := 0
      turns := .machine :: s.turns }

end Sys2Proof.Machine
end

