-- ==== Sys2Proof/Machine/Step.lean ====
section
/-! DEFINITION. The step of the machine (00_scope.md R2), and the host's way to place one instruction. -/

namespace Sys2Proof.Machine

/-- One step: one turn of one agent (00_scope.md R2, R12). -/
def step (s : State) : Host.Outcome State Fault Refusal := s.nextTurn

/-- `s` with the instruction a row of spec/opcode_table.json spells placed so that the very next step
runs it (log 12). A number that spells no code places nothing. -/
def State.withFetchWord (s : State) (nbits w : Nat) : State :=
  match tableCode nbits w with
  | none => s
  | some c => State.present c s

end Sys2Proof.Machine
end

