-- ==== Sys2Proof/Safety.lean ====
section
/-! DEFINITION. The invariant of the machine, and the terms the statements speak in. -/

namespace Sys2Proof.Safety

open Sys2Proof.Machine

/-- The invariants the spec states of the registers, and those of the sequencer while a period runs.
Every field names its rule. -/
structure Invariant (s : State) : Prop where
  /-- The memory keeps its canonical form. -/
  memWf : s.mem.wf = true
  /-- `0 <= GAIN[ch] <= VOL_MAX` at all times (10_state.md R21). -/
  gainBound : ∀ ch : Fin hw.maxCh, s.gain[ch].toNat ≤ hw.volMax
  /-- `SCALED[ch] = GAIN[ch] * K` at all times (10_state.md R22). -/
  scaledIs : ∀ ch : Fin hw.maxCh, s.scaled[ch].toNat = s.gain[ch].toNat * rescaleFactor hw
  /-- `0 <= ACT[ch] <= INT32_MAX` (42_datapath.md R163). -/
  actBound : ∀ ch : Fin hw.maxCh, s.act[ch].toNat ≤ hw.int32Max
  /-- `0 <= CHANNELS <= MAX_CH` (10_state.md R24). -/
  channelsBound : s.channels.toNat ≤ hw.maxCh
  /-- The format code 3 is never stored (10_state.md R25). -/
  srcFmtNamed : s.srcFmt.toNat ≤ 2
  /-- The format code 3 is never stored (10_state.md R25). -/
  sinkFmtNamed : s.sinkFmt.toNat ≤ 2
  /-- When `RESOLVED = 1`, `ROUTINE = 3 * SRC_FMT + SINK_FMT` (10_state.md R26). -/
  routineIs : s.resolved = true → s.routine.toNat = 3 * s.srcFmt.toNat + s.sinkFmt.toNat
  /-- A period runs only on a resolved stream (44_dispatch_facade.md R214). -/
  busyResolved : s.busy = true → s.resolved = true
  /-- A period runs only on valid rings (44_dispatch_facade.md R214, 10_state.md R28). -/
  busySrcValid : s.busy = true → s.ringSrc.valid = true
  /-- A period runs only on valid rings (44_dispatch_facade.md R214, 10_state.md R28). -/
  busySnkValid : s.busy = true → s.ringSnk.valid = true
  /-- `0 <= FRAME_IDX <= FRAMES` (10_state.md R29). -/
  busyFrame : s.busy = true → s.frameIdx.toNat ≤ s.frames.toNat
  /-- `0 <= CH_IDX < CHANNELS` while there are channels to process (10_state.md R29). -/
  busyChannel : s.busy = true → s.channels.toNat ≠ 0 → s.chIdx.toNat < s.channels.toNat

/-- The source format the registers hold, when the code names one. -/
def srcFormat (s : State) : Option SampleFormat := formatOf s.srcFmt.toNat

/-- The sink format the registers hold, when the code names one. -/
def sinkFormat (s : State) : Option SampleFormat := formatOf s.sinkFmt.toNat

/-- `CODE`, bits 39:32 of a response word (30_encoding.md R96). -/
def codeOf (w : Packet) : BitVec 8 := w.extractLsb' 32 8

/-- `DATA`, bits 31:0 of a response word (30_encoding.md R96). -/
def dataOf (w : Packet) : Word := w.extractLsb' 0 32

/-- The responses returned on a port. -/
def out (p : Port) (s : State) : List Packet :=
  match p with
  | .cmd => s.cmdOut
  | .cfg => s.cfgOut

/-- `s` with one more response on a port. -/
def answered (p : Port) (w : Packet) (s : State) : State :=
  match p with
  | .cmd => { s with cmdOut := s.cmdOut ++ [w] }
  | .cfg => { s with cfgOut := s.cfgOut ++ [w] }

/-- An address inside a ring's region `[ADDR, END)`. -/
def inRegion (r : Ring) (a : Word) : Prop := r.addr.toNat ≤ a.toNat ∧ a.toNat < r.endAddr.toNat

/-- The container at a ring position: the bytes at `pos`, `pos + 1`, ... with wrap, the first the least
significant (20_memory.md R61, R64). -/
def containerAt (m : Memory) (r : Ring) (pos : Word) (n : Nat) : Nat :=
  leValue ((List.range n).map fun j => m.byte (r.advance pos j))

/-- The eleven (match, mask) rows of 30_encoding.md R92, in its order. -/
def opcodeMap : List (Packet × Packet) :=
  [(0x0100000000000000#64, 0xFF00FFFFFFFFFFFF#64),
   (0x0200000000000000#64, 0xFFFFFFFFFFFFFFFF#64),
   (0x0300000000000000#64, 0xFF0000FFFFFFFFFF#64),
   (0x0400000000000000#64, 0xFFFFFFFF00000000#64),
   (0x0500000000000000#64, 0xFF00FFFF00000000#64),
   (0x0600000000000000#64, 0xFF0000FF00000000#64),
   (0x0700000000000000#64, 0xFF0000FFFFFFFFFF#64),
   (0x0800000000000000#64, 0xFF00FFFF00000000#64),
   (0x0900000000000000#64, 0xFF00FFFF00000000#64),
   (0x0A00000000000000#64, 0xFFFFFFFFFFFFFFFF#64),
   (0x0B00000000000000#64, 0xFF0000FFFFFFFFFF#64)]

/-- The closed forms of 42_datapath.md R176, for checking the datapath. -/
def closedForm (src snk : SampleFormat) (x : Int) (m : Nat) : Int :=
  match src, snk with
  | .s16, .s16 => rnd (x * m) 31
  | .s16, .s24 => rnd (x * m) 31 * 256
  | .s16, .s32 => rnd (x * m) 31 * 65536
  | .s24, .s16 => sat 16 (rnd (x * m) 39)
  | .s24, .s24 => rnd (x * m) 31
  | .s24, .s32 => rnd (x * m) 31 * 256
  | .s32, .s16 => sat 16 (rnd (x * m) 47)
  | .s32, .s24 => sat 24 (rnd (rnd (x * m) 31) 8)
  | .s32, .s32 => rnd (x * m) 31

/-- The value before the narrowing of step 5 (42_datapath.md R166), with this hardware's table. -/
def aligned (src snk : SampleFormat) (x : Int) (m : Nat) : Int :=
  let row := shiftTable src snk
  postAlign row (applyGain 31 row (preAlign row x) m)

/-- The first turn is not the reset input. -/
def noReset (s : State) : Prop := ∀ ts, s.turns ≠ .reset :: ts

/-- The machine itself moves next, and `ts` are the turns listed after that. -/
def machineMoves (s : State) (ts : List Turn) : Prop :=
  s.turns = .machine :: ts ∨ (s.turns = [] ∧ ts = [])

/-- `t` is the state after `k` steps from `s`, none of which stops. -/
def runs : Nat → State → State → Prop
  | 0, s, t => s = t
  | k + 1, s, t => ∃ u, step s = .next u ∧ runs k u t

end Sys2Proof.Safety
end

