-- ==== Sys2Proof/Certificates/Slice0/Obligations.lean ====
section
/-! DEFINITION. The statements for the provers. Each docstring says which rule of spec/ it formalises.
`answered p w s` is `s` with the response word `w` returned on port `p`, so an equation between a
meaning's outcome and `answered` of an updated state says the result and the whole frame at once. -/

open Sys2Proof Sys2Proof.Machine Sys2Proof.Safety

/-! ### Encoding -/

/-- Decode and encode agree, both ways, on every instruction and every code (30_encoding.md R90 to R92,
R98, R99): a code decodes to an instruction exactly when it is that instruction's code. -/
def Obligations.DecodeEncodeAgree : Prop :=
  ∀ (c : Code) (i : Instr), decode c = some i ↔ encode i = c

/-- The eleven match and mask rows of 30_encoding.md R92: the words a row matches are the words that
decode to its command, with the operands in the fields of R90. -/
def Obligations.OpcodeMapRows : Prop :=
  ∀ w : Packet,
    let a : BitVec 8 := w.extractLsb' 48 8
    let b : BitVec 8 := w.extractLsb' 40 8
    let imm : Word := w.extractLsb' 0 32
    (w &&& 0xFF00FFFFFFFFFFFF#64 = 0x0100000000000000#64 ↔ decode (.word w) = some (.strmcfg a)) ∧
    (w &&& 0xFFFFFFFFFFFFFFFF#64 = 0x0200000000000000#64 ↔ decode (.word w) = some .strmfree) ∧
    (w &&& 0xFF0000FFFFFFFFFF#64 = 0x0300000000000000#64 ↔ decode (.word w) = some (.negotiate a b)) ∧
    (w &&& 0xFFFFFFFF00000000#64 = 0x0400000000000000#64 ↔ decode (.word w) = some (.process imm)) ∧
    (w &&& 0xFF00FFFF00000000#64 = 0x0500000000000000#64 ↔ decode (.word w) = some (.configure a imm)) ∧
    (w &&& 0xFF0000FF00000000#64 = 0x0600000000000000#64 ↔ decode (.word w) = some (.rbset a b imm)) ∧
    (w &&& 0xFF0000FFFFFFFFFF#64 = 0x0700000000000000#64 ↔ decode (.word w) = some (.rbget a b)) ∧
    (w &&& 0xFF00FFFF00000000#64 = 0x0800000000000000#64 ↔ decode (.word w) = some (.rbadvr a imm)) ∧
    (w &&& 0xFF00FFFF00000000#64 = 0x0900000000000000#64 ↔ decode (.word w) = some (.rbadvw a imm)) ∧
    (w &&& 0xFFFFFFFFFFFFFFFF#64 = 0x0A00000000000000#64 ↔ decode (.word w) = some .getst) ∧
    (w &&& 0xFF0000FFFFFFFFFF#64 = 0x0B00000000000000#64 ↔ decode (.word w) = some (.getgain a b))

/-- 30_encoding.md R98: a word is illegal exactly when one of its reasons holds (`Code.wellFormed` is
the list of them), equivalently when it matches no row of R92; an illegal word is answered
`ERR_BAD_COMMAND` on either port with no change of state; the all-zero word is illegal. -/
def Obligations.IllegalWordsAnswered : Prop :=
  (∀ w : Packet, decode (.word w) = none ↔ Code.wellFormed (.word w) = false) ∧
  (∀ w : Packet, decode (.word w) = none ↔ ∀ row ∈ opcodeMap, w &&& row.2 ≠ row.1) ∧
  (∀ (p : Port) (w : Packet) (s : State), decode (.word w) = none →
    State.accept p w s = .next (answered p 0x0000000300000000#64 { s with port := p })) ∧
  decode (.word 0#64) = none

/-- A few words written out from 30_encoding.md R92 and 95_test_vectors.md, one or more per family, and
keys of R99, decode to the instructions they stand for. -/
def Obligations.SampleWordsDecode : Prop :=
  decode (.word 0x0102000000000000#64) = some (.strmcfg 2#8) ∧
  decode (.word 0x0302010000000000#64) = some (.negotiate 2#8 1#8) ∧
  decode (.word 0x0400000000000004#64) = some (.process 4#32) ∧
  decode (.word 0x0501000040000000#64) = some (.configure 1#8 0x40000000#32) ∧
  decode (.word 0x0600010000001010#64) = some (.rbset 0#8 1#8 0x1010#32) ∧
  decode (.word 0x08010000FFFFFFFF#64) = some (.rbadvr 1#8 0xFFFFFFFF#32) ∧
  decode (.word 0x0A00000000000000#64) = some .getst ∧
  decode (.word 0x0B00020000000000#64) = some (.getgain 0#8 2#8) ∧
  decode (.key 0b0111#4) = some .convS32S24

/-- The dispatch table, 44_dispatch_facade.md R213 and 30_encoding.md R99: entry `3 * source + sink` is
the pair's routine, and 9 to 15 name no routine. -/
def Obligations.DispatchTableEntries : Prop :=
  (∀ src snk : SampleFormat,
    decode (.key (BitVec.ofNat 4 (3 * formatCode src + formatCode snk))) = some (src.routine snk)) ∧
  (∀ k : BitVec 4, 9 ≤ k.toNat → decode (.key k) = none)

/-! ### Steps -/

/-- A step runs the decoded instruction, CMD port (30_encoding.md R100): when the machine moves, is
idle and holds a word, the step is the acceptance of the oldest one, taken off the port: `exec i` where
it decodes to `i`, the answer `ERR_BAD_COMMAND` and nothing else where it is illegal (R98). -/
def Obligations.StepRunsHeldCommand : Prop :=
  ∀ (s : State) (w : Packet) (rest : List Packet) (ts : List Turn),
    machineMoves s ts → s.busy = false → s.cmdHeld = w :: rest →
    step s = State.accept .cmd w { s with turns := ts, cmdHeld := rest } ∧
    (∀ i, decode (.word w) = some i → step s = exec i { s with turns := ts, cmdHeld := rest, port := .cmd }) ∧
    (decode (.word w) = none →
      step s = .next (answered .cmd 0x0000000300000000#64 { s with turns := ts, cmdHeld := rest, port := .cmd }))

/-- A step runs the decoded instruction, CFG port (30_encoding.md R100): at any time, also while BUSY. -/
def Obligations.StepRunsConfigurationWord : Prop :=
  ∀ (s : State) (w : Packet) (ts : List Turn) (i : Instr),
    s.turns = .cfg w :: ts → decode (.word w) = some i →
    step s = exec i { s with turns := ts, port := .cfg }

/-- A step runs the selected routine (44_dispatch_facade.md R215, 30_encoding.md R99). -/
def Obligations.StepRunsRoutine : Prop :=
  ∀ (s : State) (ts : List Turn) (i : Instr),
    machineMoves s ts → s.busy = true → s.frameIdx.toNat < s.frames.toNat → s.channels ≠ 0 →
    decode (.key s.routine) = some i →
    step s = exec i { s with turns := ts }

/-- The completion of a period (44_dispatch_facade.md R216). That the counters, unobservable while idle,
keep their values is the model's choice (log 15). -/
def Obligations.StepCompletesPeriod : Prop :=
  ∀ (s : State) (ts : List Turn),
    machineMoves s ts → s.busy = true → (s.frameIdx = s.frames ∨ s.channels = 0) →
    step s = .next (answered .cmd 0#64 { s with turns := ts, busy := false })

/-- While BUSY = 1 a word on CMD is "held (not accepted, not answered, not lost)" (30_encoding.md R100):
whatever agent moves (reset apart), the held words stay, a word presented now goes behind them, and
the only CMD response is the one that completes the period. -/
def Obligations.CmdPortHoldsWhileBusy : Prop :=
  ∀ s t : State, s.busy = true → noReset s → step s = .next t →
    t.cmdHeld = s.cmdHeld ++ (match s.turns with | .cmd w :: _ => [w] | _ => []) ∧
    (t.busy = true → t.cmdOut = s.cmdOut) ∧
    (t.busy = false → t.cmdOut = s.cmdOut ++ [0#64] ∧ (s.frameIdx = s.frames ∨ s.channels = 0))

/-- Only CONFIGURE is allowed on CFG: any other word, legal or not, is answered `ERR_BAD_COMMAND` there
and changes nothing (30_encoding.md R100, 60_exceptions.md R243, R249). -/
def Obligations.CfgPortTakesConfigureOnly : Prop :=
  ∀ (s : State) (w : Packet) (ts : List Turn),
    s.turns = .cfg w :: ts → (∀ ch g, decode (.word w) ≠ some (.configure ch g)) →
    step s = .next (answered .cfg 0x0000000300000000#64 { s with turns := ts, port := .cfg })

/-- Quiescence (70_reset_and_hazards.md R282): idle with no word presented, the machine stays the same
for ever. -/
def Obligations.QuiescentForEver : Prop :=
  ∀ (k : Nat) (s : State), s.turns = [] → s.busy = false → s.cmdHeld = [] → runs k s s

/-- Every accepted word is answered at once by exactly one response on its own port, with `CODE` at most
5 and `DATA` = 0 when it failed; only an accepted PROCESS is not answered yet (30_encoding.md R96,
R97). Acceptance never stops. -/
def Obligations.OneResponsePerWord : Prop :=
  ∀ (p : Port) (w : Packet) (s : State), ∃ t, State.accept p w s = .next t ∧
    ((∃ (c : BitVec 8) (d : Word), c.toNat ≤ 5 ∧ (c ≠ 0 → d = 0) ∧
        out p t = out p s ++ [0#24 ++ c ++ d] ∧ ∀ q, q ≠ p → out q t = out q s) ∨
      ((∃ f, decode (.word w) = some (.process f)) ∧ p = .cmd ∧ t.busy = true ∧
        ∀ q, out q t = out q s))

/-- A failed command changes nothing but the response (60_exceptions.md R248): if a word's response
carries a code other than 0, every other field is as it was. -/
def Obligations.FailedCommandChangesNothing : Prop :=
  ∀ (p : Port) (w r : Packet) (s t : State),
    State.accept p w s = .next t → out p t = out p s ++ [r] → codeOf r ≠ 0 →
    t = answered p r { s with port := p }

/-! ### Commands: results and frames -/

/-- STRMCFG on CMD (44_dispatch_facade.md R210). That `ROUTINE`, unobservable while unresolved, keeps its
value is the model's choice (log 15). -/
def Obligations.StrmcfgResult : Prop :=
  ∀ (s : State) (n : BitVec 8), s.port = .cmd →
    exec (.strmcfg n) s =
      if n.toNat ≤ 8 then .next (answered .cmd 0#64 { s with channels := n, resolved := false })
      else .next (answered .cmd 0x0000000400000000#64 s)

/-- STRMFREE on CMD (44_dispatch_facade.md R211). That `ROUTINE`, unobservable while unresolved, keeps its
value is the model's choice (log 15). -/
def Obligations.StrmfreeResult : Prop :=
  ∀ s : State, s.port = .cmd →
    exec .strmfree s = .next (answered .cmd 0#64 { s with channels := 0, resolved := false })

/-- NEGOTIATE on CMD (44_dispatch_facade.md R212): a supported pair is stored and resolved; any other
leaves the prior resolution untouched. -/
def Obligations.NegotiateResult : Prop :=
  ∀ (s : State) (a b : BitVec 8), s.port = .cmd →
    (a.toNat ≤ 2 ∧ b.toNat ≤ 2 →
      ∃ (f g : BitVec 2) (k : BitVec 4), f.toNat = a.toNat ∧ g.toNat = b.toNat ∧
        k.toNat = 3 * a.toNat + b.toNat ∧
        exec (.negotiate a b) s =
          .next (answered .cmd 0#64 { s with srcFmt := f, sinkFmt := g, routine := k, resolved := true })) ∧
    (2 < a.toNat ∨ 2 < b.toNat →
      exec (.negotiate a b) s = .next (answered .cmd 0x0000000100000000#64 s))

/-- Idempotence of NEGOTIATE (44_dispatch_facade.md R218, R212): with the pair already held it succeeds
and leaves every register with the value it had. -/
def Obligations.RenegotiateIdempotent : Prop :=
  ∀ s : State, Invariant s → s.port = .cmd → s.resolved = true →
    exec (.negotiate (s.srcFmt.setWidth 8) (s.sinkFmt.setWidth 8)) s = .next (answered .cmd 0#64 s)

/-- PROCESS on CMD, its acceptance and its failures in their order (44_dispatch_facade.md R214,
41_gain_table.md R144, 60_exceptions.md R247). -/
def Obligations.ProcessAcceptance : Prop :=
  ∀ (s : State) (f : Word), s.port = .cmd →
    (s.resolved = true → s.ringSrc.valid = true → s.ringSnk.valid = true →
      exec (.process f) s =
        .next { s with act := s.scaled, frames := f, frameIdx := 0, chIdx := 0, busy := true }) ∧
    (s.resolved = false → exec (.process f) s = .next (answered .cmd 0x0000000200000000#64 s)) ∧
    (s.resolved = true → (s.ringSrc.valid = false ∨ s.ringSnk.valid = false) →
      exec (.process f) s = .next (answered .cmd 0x0000000500000000#64 s))

/-- CONFIGURE on either port (41_gain_table.md R140 to R143): the gain is clamped to `VOL_MAX`, and
with K = 1 the scaled gain is the gain; `ACT` and every other entry stay. -/
def Obligations.ConfigureResult : Prop :=
  ∀ (s : State) (a : BitVec 8) (v : Word),
    (∀ h : a.toNat < 8,
      exec (.configure a v) s =
        .next (answered s.port 0#64
          { s with
            gain := s.gain.set a.toNat (if v.toNat ≤ 2147483647 then v else 0x7FFFFFFF#32) h
            scaled := s.scaled.set a.toNat (if v.toNat ≤ 2147483647 then v else 0x7FFFFFFF#32) h })) ∧
    (8 ≤ a.toNat → exec (.configure a v) s = .next (answered s.port 0x0000000400000000#64 s))

/-- A scaled gain fits a non-negative signed 32-bit value, for every parameter set that meets the
constraints of 00_scope.md R6 (41_gain_table.md R141, R142): the clamped gain is at most `VOL_MAX`, and
its rescale at most `INT32_MAX`. -/
def Obligations.ScaledGainFits : Prop :=
  ∀ (p : Config.Params) (v : Word), paramsOk p = true →
    clampGain p v ≤ p.volMax ∧ (v.toNat ≤ p.volMax → clampGain p v = v.toNat) ∧
    rescaleGain p (clampGain p v) ≤ p.int32Max ∧ 1 ≤ rescaleFactor p

/-- GETGAIN on CMD (41_gain_table.md R145). -/
def Obligations.GetgainResult : Prop :=
  ∀ (s : State) (a b : BitVec 8), s.port = .cmd →
    (∀ h : a.toNat < 8,
      exec (.getgain a 0#8) s = .next (answered .cmd (s.gain[a.toNat].setWidth 64) s) ∧
      exec (.getgain a 1#8) s = .next (answered .cmd (s.scaled[a.toNat].setWidth 64) s) ∧
      exec (.getgain a 2#8) s = .next (answered .cmd (s.act[a.toNat].setWidth 64) s)) ∧
    (8 ≤ a.toNat ∨ 2 < b.toNat →
      exec (.getgain a b) s = .next (answered .cmd 0x0000000400000000#64 s))

/-- RBSET on CMD (40_ring_buffer.md R120): each of the eight fields, the value unchecked, and selectors
out of range. -/
def Obligations.RbsetResult : Prop :=
  ∀ (s : State) (a b : BitVec 8) (v : Word), s.port = .cmd →
    exec (.rbset 0#8 0#8 v) s =
      .next (answered .cmd 0#64 { s with ringSrc := { s.ringSrc with addr := v } }) ∧
    exec (.rbset 0#8 1#8 v) s =
      .next (answered .cmd 0#64 { s with ringSrc := { s.ringSrc with endAddr := v } }) ∧
    exec (.rbset 0#8 2#8 v) s =
      .next (answered .cmd 0#64 { s with ringSrc := { s.ringSrc with rptr := v } }) ∧
    exec (.rbset 0#8 3#8 v) s =
      .next (answered .cmd 0#64 { s with ringSrc := { s.ringSrc with wptr := v } }) ∧
    exec (.rbset 1#8 0#8 v) s =
      .next (answered .cmd 0#64 { s with ringSnk := { s.ringSnk with addr := v } }) ∧
    exec (.rbset 1#8 1#8 v) s =
      .next (answered .cmd 0#64 { s with ringSnk := { s.ringSnk with endAddr := v } }) ∧
    exec (.rbset 1#8 2#8 v) s =
      .next (answered .cmd 0#64 { s with ringSnk := { s.ringSnk with rptr := v } }) ∧
    exec (.rbset 1#8 3#8 v) s =
      .next (answered .cmd 0#64 { s with ringSnk := { s.ringSnk with wptr := v } }) ∧
    (1 < a.toNat ∨ 3 < b.toNat →
      exec (.rbset a b v) s = .next (answered .cmd 0x0000000400000000#64 s))

/-- RBGET (40_ring_buffer.md R121): on CMD each of the eight fields, whether or not the ring is valid,
selectors out of range, and nothing written; `ERR_BAD_COMMAND` on CFG and, on either port, for a word
with `OP` = 0x07 and `RSV` or `IMM` not 0; the rule's encoding and its example. -/
def Obligations.RbgetResult : Prop :=
  (∀ (s : State) (a b : BitVec 8), s.port = .cmd →
    exec (.rbget 0#8 0#8) s = .next (answered .cmd (s.ringSrc.addr.setWidth 64) s) ∧
    exec (.rbget 0#8 1#8) s = .next (answered .cmd (s.ringSrc.endAddr.setWidth 64) s) ∧
    exec (.rbget 0#8 2#8) s = .next (answered .cmd (s.ringSrc.rptr.setWidth 64) s) ∧
    exec (.rbget 0#8 3#8) s = .next (answered .cmd (s.ringSrc.wptr.setWidth 64) s) ∧
    exec (.rbget 1#8 0#8) s = .next (answered .cmd (s.ringSnk.addr.setWidth 64) s) ∧
    exec (.rbget 1#8 1#8) s = .next (answered .cmd (s.ringSnk.endAddr.setWidth 64) s) ∧
    exec (.rbget 1#8 2#8) s = .next (answered .cmd (s.ringSnk.rptr.setWidth 64) s) ∧
    exec (.rbget 1#8 3#8) s = .next (answered .cmd (s.ringSnk.wptr.setWidth 64) s) ∧
    (1 < a.toNat ∨ 3 < b.toNat →
      exec (.rbget a b) s = .next (answered .cmd 0x0000000400000000#64 s))) ∧
  (∀ (s : State) (a b : BitVec 8), s.port = .cfg →
    exec (.rbget a b) s = .next (answered .cfg 0x0000000300000000#64 s)) ∧
  (∀ w : Packet, w.extractLsb' 56 8 = 0x07#8 →
    (w.extractLsb' 32 8 = 0#8 ∧ w.extractLsb' 0 32 = 0#32 →
      decode (.word w) = some (.rbget (w.extractLsb' 48 8) (w.extractLsb' 40 8))) ∧
    (w.extractLsb' 32 8 ≠ 0#8 ∨ w.extractLsb' 0 32 ≠ 0#32 → ∀ (p : Port) (s : State),
      State.accept p w s = .next (answered p 0x0000000300000000#64 { s with port := p }))) ∧
  (∀ s : State, s.port = .cmd → s.ringSrc.endAddr = 0x1010#32 →
    decode (.word 0x0700010000000000#64) = some (.rbget 0#8 1#8) ∧
    exec (.rbget 0#8 1#8) s = .next (answered .cmd 0x0000000000001010#64 s))

/-- RBADVR and RBADVW on CMD (40_ring_buffer.md R122, R123): on a valid ring the cursor moves to
`ADDR + ((cursor - ADDR + n) mod (END - ADDR))` and nothing else changes; the errors in their order. -/
def Obligations.RbadvResult : Prop :=
  ∀ (s : State) (n : Word), s.port = .cmd →
    let new (r : Ring) (cur : Word) : Word := BitVec.ofNat 32
      (r.addr.toNat + (cur.toNat - r.addr.toNat + n.toNat) % (r.endAddr.toNat - r.addr.toNat))
    (s.ringSrc.valid = true →
      exec (.rbadvr 0#8 n) s = .next (answered .cmd 0#64
        { s with ringSrc := { s.ringSrc with rptr := new s.ringSrc s.ringSrc.rptr } }) ∧
      exec (.rbadvw 0#8 n) s = .next (answered .cmd 0#64
        { s with ringSrc := { s.ringSrc with wptr := new s.ringSrc s.ringSrc.wptr } })) ∧
    (s.ringSnk.valid = true →
      exec (.rbadvr 1#8 n) s = .next (answered .cmd 0#64
        { s with ringSnk := { s.ringSnk with rptr := new s.ringSnk s.ringSnk.rptr } }) ∧
      exec (.rbadvw 1#8 n) s = .next (answered .cmd 0#64
        { s with ringSnk := { s.ringSnk with wptr := new s.ringSnk s.ringSnk.wptr } })) ∧
    (s.ringSrc.valid = false →
      exec (.rbadvr 0#8 n) s = .next (answered .cmd 0x0000000500000000#64 s) ∧
      exec (.rbadvw 0#8 n) s = .next (answered .cmd 0x0000000500000000#64 s)) ∧
    (s.ringSnk.valid = false →
      exec (.rbadvr 1#8 n) s = .next (answered .cmd 0x0000000500000000#64 s) ∧
      exec (.rbadvw 1#8 n) s = .next (answered .cmd 0x0000000500000000#64 s)) ∧
    (∀ a : BitVec 8, 1 < a.toNat →
      exec (.rbadvr a n) s = .next (answered .cmd 0x0000000400000000#64 s) ∧
      exec (.rbadvw a n) s = .next (answered .cmd 0x0000000400000000#64 s))

/-- GETST on CMD (44_dispatch_facade.md R217, 10_state.md R30): the status word
`CHANNELS << 16 + SINK_FMT << 8 + SRC_FMT << 4 + RESOLVED`, and nothing written. -/
def Obligations.GetstResult : Prop :=
  ∀ s : State, s.port = .cmd →
    exec .getst s = .next (answered .cmd
      (BitVec.ofNat 64
        (s.channels.toNat * 2 ^ 16 + s.sinkFmt.toNat * 2 ^ 8 + s.srcFmt.toNat * 2 ^ 4 + s.resolved.toNat)) s)

/-- Who writes what (10_state.md R36): for every instruction that answers a next state, each piece of
state that the access table does not let it write is as it was. A routine writes what PROCESS writes in
its sample steps, of sample memory the sink region only, here for a valid sink ring (R28: no period
runs on another). (That STRMCFG and STRMFREE leave `ROUTINE` is the model's choice, log 15.) -/
def Obligations.AccessTable : Prop :=
  ∀ (i : Instr) (s t : State), exec i s = .next t →
    let conv := ∃ src snk : SampleFormat, i = src.routine snk
    ((∀ ch g, i ≠ .configure ch g) → t.gain = s.gain ∧ t.scaled = s.scaled) ∧
    ((∀ f, i ≠ .process f) → t.act = s.act ∧ t.frames = s.frames ∧ t.busy = s.busy) ∧
    ((∀ n, i ≠ .strmcfg n) → i ≠ .strmfree → t.channels = s.channels) ∧
    ((∀ a b, i ≠ .negotiate a b) → t.srcFmt = s.srcFmt ∧ t.sinkFmt = s.sinkFmt ∧ t.routine = s.routine) ∧
    ((∀ n, i ≠ .strmcfg n) → i ≠ .strmfree → (∀ a b, i ≠ .negotiate a b) → t.resolved = s.resolved) ∧
    ((∀ a b v, i ≠ .rbset a b v) →
      t.ringSrc.addr = s.ringSrc.addr ∧ t.ringSrc.endAddr = s.ringSrc.endAddr ∧
      t.ringSnk.addr = s.ringSnk.addr ∧ t.ringSnk.endAddr = s.ringSnk.endAddr ∧
      ((∀ a n, i ≠ .rbadvr a n) → t.ringSnk.rptr = s.ringSnk.rptr ∧ (¬conv → t.ringSrc.rptr = s.ringSrc.rptr)) ∧
      ((∀ a n, i ≠ .rbadvw a n) → t.ringSrc.wptr = s.ringSrc.wptr ∧ (¬conv → t.ringSnk.wptr = s.ringSnk.wptr))) ∧
    (¬conv → t.mem = s.mem ∧
      ((∀ f, i ≠ .process f) → t.frameIdx = s.frameIdx ∧ t.chIdx = s.chIdx)) ∧
    (conv → t.cmdOut = s.cmdOut ∧ t.cfgOut = s.cfgOut ∧
      (s.ringSnk.valid = true → ∀ a, ¬inRegion s.ringSnk a → t.mem.byte a = s.mem.byte a)) ∧
    t.port = s.port ∧ t.cmdHeld = s.cmdHeld ∧ t.turns = s.turns

/-! ### The conversion routines -/

/-- One step of each of the nine routines CONV.S16.S16, CONV.S16.S24, CONV.S16.S32, CONV.S24.S16,
CONV.S24.S24, CONV.S24.S32, CONV.S32.S16, CONV.S32.S24, CONV.S32.S32 (`src.routine snk`), on valid
rings and a channel of the table (42_datapath.md R160, 44_dispatch_facade.md R215, 20_memory.md R64,
R65): it answers a next state; both cursors advance by a container; the counters advance channel
first; the sink window holds the converted container, least significant byte first (where the region
is shorter than the container the byte stored last stands); every byte outside it and every other
register is as before. -/
def Obligations.RoutineStepResult : Prop :=
  ∀ (src snk : SampleFormat) (s : State) (hc : s.chIdx.toNat < 8),
    s.ringSrc.valid = true → s.ringSnk.valid = true →
    let c := containerAt s.mem s.ringSrc s.ringSrc.rptr (containerBytes src)
    let v := Machine.conv hw src snk c s.act[s.chIdx.toNat].toNat
    let at_ (j : Nat) := s.ringSnk.advance s.ringSnk.wptr j
    ∃ m : Memory,
      exec (src.routine snk) s = .next
        { s with
          mem := m
          ringSrc := { s.ringSrc with rptr := s.ringSrc.advance s.ringSrc.rptr (containerBytes src) }
          ringSnk := { s.ringSnk with wptr := s.ringSnk.advance s.ringSnk.wptr (containerBytes snk) }
          chIdx := if s.chIdx.toNat + 1 < s.channels.toNat then s.chIdx + 1 else 0
          frameIdx := if s.chIdx.toNat + 1 < s.channels.toNat then s.frameIdx else s.frameIdx + 1 } ∧
      (∀ a, (∀ j < containerBytes snk, a ≠ at_ j) → m.byte a = s.mem.byte a) ∧
      (∀ j < containerBytes snk, (∀ k, j < k → k < containerBytes snk → at_ j ≠ at_ k) →
        m.byte (at_ j) = BitVec.ofNat 8 (containerOf snk v / 256 ^ j))

/-- The closed forms of 42_datapath.md R176, for every container and every legal multiplier: the
definition of R169 with the table of R170 computes them. They are the forms of R190 to R198. -/
def Obligations.ConversionClosedForms : Prop :=
  ∀ (src snk : SampleFormat) (c m : Nat), m ≤ 2147483647 →
    conv hw src snk c m = closedForm src snk (sampleOf src c) m

/-- Zero gain, 42_datapath.md R172: with multiplier 0 the product, the rounded, the aligned and the
narrowed value are 0 in every row for every input, and the container written is all zero bytes;
likewise input 0 gives 0 at every gain. -/
def Obligations.ZeroGainGivesZero : Prop :=
  (∀ (src snk : SampleFormat) (c : Nat),
    let row := shiftTable src snk
    let w := preAlign row (sampleOf src c)
    w * (0 : Nat) = 0 ∧ applyGain 31 row w 0 = 0 ∧ postAlign row (applyGain 31 row w 0) = 0 ∧
    conv hw src snk c 0 = 0 ∧
    bytesOf .little (containerBytes snk) (containerOf snk (conv hw src snk c 0)) =
      List.replicate (containerBytes snk) 0#8) ∧
  (∀ (src snk : SampleFormat) (c m : Nat), sampleOf src c = 0 → conv hw src snk c m = 0)

/-- Unity gain, 42_datapath.md R173: for every row and every input the output is the input converted to
the sink width, with an error of at most 1 LSB of the sink. -/
def Obligations.UnityWithinOneLsb : Prop :=
  ∀ (src snk : SampleFormat) (c : Nat),
    |conv hw src snk c 2147483647 * 2 ^ (sampleWidth src - sampleWidth snk)
        - sampleOf src c * 2 ^ (sampleWidth snk - sampleWidth src)|
      ≤ 2 ^ (sampleWidth src - sampleWidth snk)

/-- Monotonicity, 42_datapath.md R174 (c): a conversion does not decrease in the sample, nor in the
multiplier for samples at or above 0, nor increase in it for samples at or below 0. -/
def Obligations.ConversionMonotone : Prop :=
  ∀ (src snk : SampleFormat) (c c' m m' : Nat),
    (sampleOf src c ≤ sampleOf src c' → conv hw src snk c m ≤ conv hw src snk c' m) ∧
    (m ≤ m' → 0 ≤ sampleOf src c → conv hw src snk c m ≤ conv hw src snk c m') ∧
    (m ≤ m' → sampleOf src c ≤ 0 → conv hw src snk c m' ≤ conv hw src snk c m)

/-- Where saturation can act, 42_datapath.md R174 (e): never when the sink is at least as wide as the
source; else only at one past the positive maximum; and the smallest inputs that saturate at unity. -/
def Obligations.SaturationOnlyOnePast : Prop :=
  (∀ (src snk : SampleFormat) (c m : Nat), m ≤ 2147483647 →
    let a := aligned src snk (sampleOf src c) m
    a ≤ 2 ^ (sampleWidth snk - 1) ∧ -2 ^ (sampleWidth snk - 1) ≤ a ∧
    (sampleWidth src ≤ sampleWidth snk → a < 2 ^ (sampleWidth snk - 1))) ∧
  (∀ c : Nat,
    (aligned .s24 .s16 (sampleOf .s24 c) 2147483647 = 2 ^ 15 ↔ 0x7FFF81 ≤ sampleOf .s24 c) ∧
    (aligned .s32 .s16 (sampleOf .s32 c) 2147483647 = 2 ^ 15 ↔ 0x7FFF8001 ≤ sampleOf .s32 c) ∧
    (aligned .s32 .s24 (sampleOf .s32 c) 2147483647 = 2 ^ 23 ↔ 0x7FFFFF81 ≤ sampleOf .s32 c))

/-- 42_datapath.md R171: no intermediate value of the datapath leaves the signed 64-bit range. -/
def Obligations.NoIntermediateOverflow : Prop :=
  ∀ (src snk : SampleFormat) (c m : Nat), m ≤ 2 ^ 31 - 1 →
    let row := shiftTable src snk
    let w := preAlign row (sampleOf src c)
    let p := w * (m : Int)
    let t := 31 + row.pms
    let r := applyGain 31 row w m
    let a := postAlign row r
    |w| ≤ 2 ^ 31 ∧ |p| ≤ 2 ^ 31 * (2 ^ 31 - 1) ∧ |p| < 2 ^ 62 ∧ (2 : Int) ^ (t - 1) ≤ 2 ^ 46 ∧
    |p| + 2 ^ (t - 1) < 2 ^ 63 ∧ |r| ≤ 2 ^ 31 - 1 ∧ |a| ≤ |r| * 2 ^ 16 ∧ |a| < 2 ^ 47

/-- Rounding, 42_datapath.md R164 and R174 (b): `rnd` is the two-case formula, the nearest integer, odd,
and takes a tie away from zero. -/
def Obligations.RoundsHalfAwayFromZero : Prop :=
  ∀ (p : Int) (t : Nat), 0 < t →
    (0 ≤ p → rnd p t = (p + 2 ^ (t - 1)) >>> t) ∧
    (p < 0 → rnd p t = -((-p + 2 ^ (t - 1)) >>> t)) ∧
    rnd (-p) t = -rnd p t ∧
    2 * |rnd p t * 2 ^ t - p| ≤ 2 ^ t ∧
    rnd (2 ^ (t - 1)) t = 1 ∧ rnd (-2 ^ (t - 1)) t = -1 ∧ rnd (3 * 2 ^ (t - 1)) t = 2 ∧
    rnd (2 ^ (t - 1) - 1) t = 0

/-- Double rounding in CONV.S32.S24, 42_datapath.md R175: at bit 31 and again in the shift by 8, which
is not one rounding by 39; the rule's example. -/
def Obligations.DoubleRoundingS32S24 : Prop :=
  (∀ c m : Nat, m ≤ 2147483647 →
    conv hw .s32 .s24 c m = sat 24 (rnd (rnd (sampleOf .s32 c * m) 31) 8)) ∧
  rnd (255 * 2 ^ 30) 31 = 128 ∧ rnd 128 8 = 1 ∧ rnd (255 * 2 ^ 30) 39 = 0 ∧
  conv hw .s32 .s24 255 (2 ^ 30) = 1

/-- Sample extraction, 42_datapath.md R161: the sample is the two's-complement value of the low `W` bits
of the container, within its width; bits 31:24 of an S24 container do not enter. -/
def Obligations.SampleExtraction : Prop :=
  ∀ c : Nat,
    sampleOf .s16 c = (BitVec.ofNat 16 c).toInt ∧
    sampleOf .s24 c = (BitVec.ofNat 24 c).toInt ∧
    sampleOf .s32 c = (BitVec.ofNat 32 c).toInt ∧
    (∀ d : Nat, c % 2 ^ 24 = d % 2 ^ 24 → sampleOf .s24 c = sampleOf .s24 d) ∧
    (∀ f : SampleFormat, -2 ^ (sampleWidth f - 1) ≤ sampleOf f c ∧
      sampleOf f c ≤ 2 ^ (sampleWidth f - 1) - 1)

/-- Containers, 20_memory.md R62: a value in range comes back from its container; an S24 container holds
the value sign-extended to 32 bits; the bytes of a container spell it. -/
def Obligations.ContainerRoundTrip : Prop :=
  ∀ (f : SampleFormat) (v : Int), -2 ^ (sampleWidth f - 1) ≤ v → v ≤ 2 ^ (sampleWidth f - 1) - 1 →
    sampleOf f (containerOf f v) = v ∧
    containerOf f v < 256 ^ containerBytes f ∧
    valueOf .little (bytesOf .little (containerBytes f) (containerOf f v)) = containerOf f v ∧
    (f ≠ .s16 → (BitVec.ofNat 32 (containerOf f v)).toInt = v)

/-- Channels are independent (43_conversion_routines.md R199, 42_datapath.md R163): a step of a routine
depends on the gain register files through `ACT[CH_IDX]` only, and changes none of them. -/
def Obligations.ChannelsIndependent : Prop :=
  ∀ (src snk : SampleFormat) (s t : State) (hc : s.chIdx.toNat < 8) (g sc act : Vector Word 8),
    act[s.chIdx.toNat] = s.act[s.chIdx.toNat] → exec (src.routine snk) s = .next t →
    exec (src.routine snk) { s with gain := g, scaled := sc, act := act } =
        .next { t with gain := g, scaled := sc, act := act } ∧
      t.gain = s.gain ∧ t.scaled = s.scaled ∧ t.act = s.act

/-! ### Rings and memory -/

/-- The cursor advance, 20_memory.md R63, for a valid ring and a cursor in its region: the formula, over
the integers; no advance and a full lap leave the cursor; the last byte wraps to `ADDR`; a count is
reduced modulo the length; the result is in the region, and the ring stays valid with it. -/
def Obligations.CursorAdvance : Prop :=
  ∀ (r : Ring) (cur : Word) (k : Nat), r.valid = true → inRegion r cur →
    ((r.advance cur k).toNat : Int) =
      r.addr.toNat + ((cur.toNat : Int) - r.addr.toNat + k) % ((r.endAddr.toNat : Int) - r.addr.toNat) ∧
    r.advance cur 0 = cur ∧
    r.advance cur (r.endAddr.toNat - r.addr.toNat) = cur ∧
    (cur.toNat + 1 = r.endAddr.toNat → r.advance cur 1 = r.addr) ∧
    r.advance cur k = r.advance cur (k % (r.endAddr.toNat - r.addr.toNat)) ∧
    inRegion r (r.advance cur k) ∧
    Ring.valid { r with rptr := r.advance cur k } = true ∧
    Ring.valid { r with wptr := r.advance cur k } = true

/-- The wrap property, 40_ring_buffer.md R126: byte `j` of a write of `k` bytes, `1 <= k <= L`, goes to
`ADDR + ((cur - ADDR + j) mod L)`, no byte goes outside those `k` places, and the cursor ends `k`
bytes on. -/
def Obligations.WriteWraps : Prop :=
  ∀ (s : State) (bs : List Byte), s.ringSnk.valid = true → 1 ≤ bs.length →
    bs.length ≤ s.ringSnk.endAddr.toNat - s.ringSnk.addr.toNat →
    let place (j : Nat) : Word := BitVec.ofNat 32
      (s.ringSnk.addr.toNat + (s.ringSnk.wptr.toNat - s.ringSnk.addr.toNat + j)
        % (s.ringSnk.endAddr.toNat - s.ringSnk.addr.toNat))
    (∀ (j : Nat) (hj : j < bs.length), (State.rbWrite bs s).mem.byte (place j) = bs[j]) ∧
    (∀ a, (∀ j < bs.length, a ≠ place j) → (State.rbWrite bs s).mem.byte a = s.mem.byte a) ∧
    (State.rbWrite bs s).ringSnk.wptr = place bs.length ∧
    (∀ j, inRegion s.ringSnk (place j)) ∧
    (s.ringSnk.wptr.toNat + 1 = s.ringSnk.endAddr.toNat → place 0 = s.ringSnk.wptr ∧
      ∀ j, 1 ≤ j → j ≤ bs.length → (place j).toNat = s.ringSnk.addr.toNat + (j - 1))

/-- Ring validity, 10_state.md R28: its meaning, the bounds of the length, that address `2^32 - 1` is in
no region, and that every step other than the acceptance of an RBSET (and other than the reset input)
preserves it, for each ring by itself: the engine's steps, CFG words and peers too while an RBSET is
held on CMD. -/
def Obligations.RingValidityKept : Prop :=
  (∀ r : Ring, r.valid = true ↔
    r.addr.toNat < r.endAddr.toNat ∧ inRegion r r.rptr ∧ inRegion r r.wptr) ∧
  (∀ r : Ring, r.valid = true →
    1 ≤ r.endAddr.toNat - r.addr.toNat ∧ r.endAddr.toNat - r.addr.toNat ≤ 2 ^ 32 - 1) ∧
  (∀ r : Ring, ¬inRegion r 0xFFFFFFFF#32) ∧
  (∀ (s t : State) (x : RingSel), (s.ring x).valid = true → noReset s →
    (∀ ts w rest a b v, machineMoves s ts → s.busy = false → s.cmdHeld = w :: rest →
      decode (.word w) ≠ some (.rbset a b v)) →
    step s = .next t → (t.ring x).valid = true)

/-- The engine writes inside the sink region only (10_state.md R32, 20_memory.md R68, R77): whatever
moves, unless a peer writes or the reset input comes, no byte outside `[RING[1].ADDR, RING[1].END)`
changes. -/
def Obligations.EngineWritesSinkRegionOnly : Prop :=
  ∀ s t : State, Invariant s → noReset s → step s = .next t → (∀ a b ts, s.turns ≠ .peerWrite a b :: ts) →
    ∀ a, ¬inRegion s.ringSnk a → t.mem.byte a = s.mem.byte a

/-- The engine reads inside the source region only (10_state.md R32): on memories that agree there, a
step of a routine stores the same bytes at the same places and leaves the same registers. -/
def Obligations.EngineReadsSourceRegionOnly : Prop :=
  ∀ (src snk : SampleFormat) (s t : State) (m : Memory),
    s.ringSrc.valid = true → s.ringSnk.valid = true →
    (∀ a, inRegion s.ringSrc a → m.byte a = s.mem.byte a) →
    exec (src.routine snk) s = .next t →
    ∃ m' : Memory, exec (src.routine snk) { s with mem := m } = .next { t with mem := m' } ∧
      ∀ a, m'.byte a =
        if ∃ j < containerBytes snk, a = s.ringSnk.advance s.ringSnk.wptr j then t.mem.byte a else m.byte a

/-- A peer's access (00_scope.md R12, 70_reset_and_hazards.md R274): with no period in flight a peer
writes any byte and a read changes nothing; during one the same holds outside the windows, and an
access of the kind R274 forbids is refused as no legal run (93_implementation_defined.md U2; log 8). -/
def Obligations.PeerAccess : Prop :=
  ∀ (s : State) (a : Word) (b : Byte) (ts : List Turn),
    (s.turns = .peerWrite a b :: ts →
      (s.busy = false ∨ (s.inSourceWindow a = false ∧ s.inSinkWindow a = false) →
        ∃ m, step s = .next { s with turns := ts, mem := m } ∧ m.byte a = b ∧
          ∀ a', a' ≠ a → m.byte a' = s.mem.byte a') ∧
      (s.inSourceWindow a = true ∨ s.inSinkWindow a = true →
        step s = .refused (.foreignWindowAccess a))) ∧
    (s.turns = .peerRead a :: ts →
      (s.busy = false ∨ s.inSinkWindow a = false → step s = .next { s with turns := ts }) ∧
      (s.inSinkWindow a = true → step s = .refused (.foreignWindowAccess a)))

/-- The law of `Ring.inWindow`: of a cursor that has advanced by `done` bytes from `start`, the test is
membership in the `total` bytes, with wrap, from `start` on. -/
def Obligations.InWindowLaw : Prop :=
  ∀ (r : Ring) (start : Word) (done total : Nat) (a : Word), r.valid = true → inRegion r start →
    (r.inWindow (r.advance start done) done total a = true ↔ ∃ j < total, a = r.advance start j)

/-- The windows of a period (20_memory.md R73): at the acceptance of PROCESS they are the
`FRAMES * CHANNELS * NB` bytes, with wrap, from `RPTR` and `WPTR` on; whichever agent moves, as long as
the period runs they stay those bytes; while no period runs there are none. -/
def Obligations.WindowsOfPeriod : Prop :=
  (∀ (s t : State) (f : Word) (src snk : SampleFormat), s.port = .cmd →
    srcFormat s = some src → sinkFormat s = some snk →
    exec (.process f) s = .next t → t.busy = true → s.busy = false → ∀ a,
    (t.inSourceWindow a = true ↔
      ∃ j < f.toNat * s.channels.toNat * containerBytes src, a = s.ringSrc.advance s.ringSrc.rptr j) ∧
    (t.inSinkWindow a = true ↔
      ∃ j < f.toNat * s.channels.toNat * containerBytes snk, a = s.ringSnk.advance s.ringSnk.wptr j)) ∧
  (∀ s t : State, Invariant s → s.busy = true → step s = .next t → t.busy = true →
    ∀ a, t.inSourceWindow a = s.inSourceWindow a ∧ t.inSinkWindow a = s.inSinkWindow a) ∧
  (∀ s : State, s.busy = false → ∀ a, s.inSourceWindow a = false ∧ s.inSinkWindow a = false)

/-! ### Reset, invariants and whole periods -/

/-- Reset values and their consequences (70_reset_and_hazards.md R271, 10_state.md R35): gains 0,
`CHANNELS` 0, unresolved, rings zero and invalid, not busy, no byte of memory written; on CMD, GETST,
every GETGAIN and every RBGET return 0, PROCESS answers `ERR_NOT_RESOLVED`, RBADVR and RBADVW
`ERR_BAD_RING`. (The values of `ROUTINE` and of the counters are the model's choice, logs 2 and 3, and
are not stated; an unwritten byte reads as the free value of log 1.) -/
def Obligations.ResetValues : Prop :=
  let s : State := { State.reset with port := .cmd }
  (∀ ch : Fin 8, s.gain[ch] = 0#32 ∧ s.scaled[ch] = 0#32 ∧ s.act[ch] = 0#32) ∧
  s.channels = 0 ∧ s.srcFmt = 0 ∧ s.sinkFmt = 0 ∧ s.resolved = false ∧ s.busy = false ∧
  (∀ a : Word, s.mem.byte a = Config.powerOnByte a.toNat) ∧
  s.ringSrc = ⟨0, 0, 0, 0⟩ ∧ s.ringSnk = ⟨0, 0, 0, 0⟩ ∧
  s.ringSrc.valid = false ∧ s.ringSnk.valid = false ∧
  exec .getst s = .next (answered .cmd 0#64 s) ∧
  (∀ a b : BitVec 8, a.toNat < 8 → b.toNat ≤ 2 → exec (.getgain a b) s = .next (answered .cmd 0#64 s)) ∧
  (∀ a b : BitVec 8, a.toNat ≤ 1 → b.toNat ≤ 3 → exec (.rbget a b) s = .next (answered .cmd 0#64 s)) ∧
  (∀ f, exec (.process f) s = .next (answered .cmd 0x0000000200000000#64 s)) ∧
  (∀ (a : BitVec 8) (n : Word), a.toNat ≤ 1 →
    exec (.rbadvr a n) s = .next (answered .cmd 0x0000000500000000#64 s) ∧
    exec (.rbadvw a n) s = .next (answered .cmd 0x0000000500000000#64 s))

/-- The reset input (70_reset_and_hazards.md R270): at any time, also during a period: every register
takes its reset value, held words are dropped without a response, bytes already written stay written.
(That the whole memory keeps what it holds, not the sink bytes alone, is the model's choice, log 4.) -/
def Obligations.ResetAtAnyTime : Prop :=
  ∀ (s : State) (ts : List Turn), s.turns = .reset :: ts →
    ∃ t, step s = .next t ∧
      (∀ ch : Fin 8, t.gain[ch] = 0#32 ∧ t.scaled[ch] = 0#32 ∧ t.act[ch] = 0#32) ∧
      t.channels = 0 ∧ t.srcFmt = 0 ∧ t.sinkFmt = 0 ∧ t.resolved = false ∧ t.busy = false ∧
      t.ringSrc = ⟨0, 0, 0, 0⟩ ∧ t.ringSnk = ⟨0, 0, 0, 0⟩ ∧
      t.cmdHeld = [] ∧ t.cmdOut = s.cmdOut ∧ t.cfgOut = s.cfgOut ∧ t.turns = ts ∧
      ∀ a, t.mem.byte a = s.mem.byte a

/-- The invariant holds after reset. -/
def Obligations.ResetMeetsInvariant : Prop := Invariant State.reset

/-- The invariant is kept by every step of every agent (10_state.md R21, R22, R24 to R26, R28, R29,
44_dispatch_facade.md R214; the memory keeps its canonical form). -/
def Obligations.StepKeepsInvariant : Prop :=
  ∀ s t : State, Invariant s → step s = .next t → Invariant t

/-- "A sample step cannot fail" (42_datapath.md R160, 44_dispatch_facade.md R216): under the invariant no
step faults, and a step is refused only where a peer reaches into a window of the period in flight
(the refusal is the model's form of 93_implementation_defined.md U2, log 8). -/
def Obligations.NoStepStops : Prop :=
  ∀ s : State, Invariant s →
    (∀ f, step s ≠ .fault f) ∧
    (∀ r, step s = .refused r → s.busy = true ∧ ∃ a ts,
      (∃ b, s.turns = .peerWrite a b :: ts ∧ (s.inSourceWindow a = true ∨ s.inSinkWindow a = true)) ∨
      (s.turns = .peerRead a :: ts ∧ s.inSinkWindow a = true))

/-- The three named faults, all in states that no run reaches (30_encoding.md R99, 10_state.md R29; that
the model stops there is its own choice, log 9): a routine with `CH_IDX` past the gain table; a sample
step due with `ROUTINE` at 9 to 15; `FRAME_IDX` above `FRAMES` with channels to process. -/
def Obligations.UnreachableStatesFault : Prop :=
  (∀ (src snk : SampleFormat) (s : State), 8 ≤ s.chIdx.toNat →
    exec (src.routine snk) s = .fault .noChannel) ∧
  (∀ (s : State) (ts : List Turn), machineMoves s ts → s.busy = true → s.channels ≠ 0 →
    (s.frames.toNat < s.frameIdx.toNat → step s = .fault .noFrame) ∧
    (s.frameIdx.toNat < s.frames.toNat → 9 ≤ s.routine.toNat → step s = .fault .noRoutine))

/-- The gain latch (41_gain_table.md R144): a step writes `ACT` only by accepting a PROCESS, and then all
entries are `SCALED` (the reset input apart). -/
def Obligations.ActLatchedAtAcceptanceOnly : Prop :=
  ∀ s t : State, noReset s → step s = .next t →
    t.act = s.act ∨
    (t.act = s.scaled ∧ s.busy = false ∧ t.busy = true ∧
      ∃ w rest f, s.cmdHeld = w :: rest ∧ decode (.word w) = some (.process f))

/-- A gain update does not reach the period in flight (41_gain_table.md R144, 10_state.md R34,
44_dispatch_facade.md R215): with other contents of `GAIN` and `SCALED`, every step of every agent during
a period leaves the same state but for those two, a CONFIGURE on CFG included; and the rest of a
running period takes the same steps to the same state, as far as its completion where words are held
on CMD, and beyond it where none are. -/
def Obligations.GainUpdateDoesNotReachPeriod : Prop :=
  (∀ (s t : State) (g sc : Vector Word 8), s.busy = true → noReset s → step s = .next t →
    ∃ g' sc', step { s with gain := g, scaled := sc } = .next { t with gain := g', scaled := sc' } ∧
      ((∀ w ts, s.turns ≠ .cfg w :: ts) → g' = g ∧ sc' = sc)) ∧
  (∀ (k : Nat) (s t : State) (g sc : Vector Word 8),
    s.busy = true → s.turns = [] → (s.cmdHeld = [] ∨ k ≤ s.samplesTotal - s.samplesDone + 1) → runs k s t →
    runs k { s with gain := g, scaled := sc } { t with gain := g, scaled := sc })

/-- An accepted PROCESS always completes, with `OK`, after exactly `FRAMES * CHANNELS` sample steps, one
acceptance and one completion step (44_dispatch_facade.md R216, 70_reset_and_hazards.md R281), and
the end state is that of R216: both cursors advanced by the period's bytes, `ACT = SCALED` as of
acceptance, no byte outside the sink window changed, everything else as before (the counters, which
hold no meaning while idle, are not stated). -/
def Obligations.PeriodCompletes : Prop :=
  ∀ (s : State) (w : Packet) (rest : List Packet) (f : Word) (src snk : SampleFormat),
    Invariant s → s.turns = [] → s.busy = false → s.cmdHeld = w :: rest → decode (.word w) = some (.process f) →
    s.resolved = true → s.ringSrc.valid = true → s.ringSnk.valid = true →
    srcFormat s = some src → sinkFormat s = some snk →
    let n := f.toNat * s.channels.toNat
    ∃ t : State, runs (n + 2) s t ∧
      t.busy = false ∧ t.cmdOut = s.cmdOut ++ [0#64] ∧ t.cfgOut = s.cfgOut ∧ t.cmdHeld = rest ∧
      t.turns = [] ∧ t.gain = s.gain ∧ t.scaled = s.scaled ∧ t.act = s.scaled ∧
      t.channels = s.channels ∧ t.srcFmt = s.srcFmt ∧ t.sinkFmt = s.sinkFmt ∧ t.resolved = true ∧
      t.routine = s.routine ∧
      t.ringSrc = { s.ringSrc with rptr := s.ringSrc.advance s.ringSrc.rptr (n * containerBytes src) } ∧
      t.ringSnk = { s.ringSnk with wptr := s.ringSnk.advance s.ringSnk.wptr (n * containerBytes snk) } ∧
      ∀ a, (∀ j < n * containerBytes snk, a ≠ s.ringSnk.advance s.ringSnk.wptr j) →
        t.mem.byte a = s.mem.byte a

/-- What a period computes (43_conversion_routines.md R199, 20_memory.md R70, 42_datapath.md R169): with
disjoint regions and a sink window that fits its region, the container of every (frame, channel) in
the sink window is the conversion of the source container of the same (frame, channel) with that
channel's gain as of acceptance. -/
def Obligations.PeriodOutput : Prop :=
  ∀ (s : State) (w : Packet) (f : Word) (src snk : SampleFormat),
    Invariant s → s.turns = [] → s.busy = false → s.cmdHeld = [w] → decode (.word w) = some (.process f) →
    s.resolved = true → s.ringSrc.valid = true → s.ringSnk.valid = true →
    srcFormat s = some src → sinkFormat s = some snk →
    (∀ a, ¬(inRegion s.ringSrc a ∧ inRegion s.ringSnk a)) →
    f.toNat * s.channels.toNat * containerBytes snk ≤ s.ringSnk.endAddr.toNat - s.ringSnk.addr.toNat →
    ∃ t : State, runs (f.toNat * s.channels.toNat + 2) s t ∧
      ∀ (i : Nat) (ch : Fin 8), i < f.toNat → ch.val < s.channels.toNat →
        let n := i * s.channels.toNat + ch.val
        containerAt t.mem s.ringSnk (s.ringSnk.advance s.ringSnk.wptr (n * containerBytes snk))
            (containerBytes snk) =
          containerOf snk (conv hw src snk
            (containerAt s.mem s.ringSrc (s.ringSrc.advance s.ringSrc.rptr (n * containerBytes src))
              (containerBytes src))
            s.scaled[ch].toNat)
end

