-- ==== Sys2Proof/Laws/Memory.lean ====
section
/-! SUPPORT. What reading and writing a byte of memory do: read after write, and the canonical form. -/

namespace Sys2Proof.Machine

theorem Memory.read_write (m : Memory) (a a' : Nat) (b : Byte) :
    (m.write a b).read a' = if a = a' then some b else m.read a' := by
  induction m with
  | nil => simp [Memory.write, Memory.read]
  | cons c m ih =>
    obtain ⟨k, d⟩ := c
    unfold Memory.write
    split
    · simp [Memory.read]
    · split
      · subst_vars; by_cases h : k = a' <;> simp [Memory.read, h]
      · simp only [Memory.read, ih]; split <;> split <;> first | rfl | omega

/-- Reading a byte after a write: the byte written, or what the address read as before. -/
theorem Memory.byte_store (m : Memory) (a a' : Word) (b : Byte) :
    (m.store a b).byte a' = if a = a' then b else m.byte a' := by
  simp only [Memory.byte, Memory.store, Memory.read_write, BitVec.toNat_inj]
  split <;> simp

@[simp] theorem Memory.byte_store_self (m : Memory) (a : Word) (b : Byte) :
    (m.store a b).byte a = b := by simp [Memory.byte_store]

theorem Memory.byte_store_ne (m : Memory) {a a' : Word} (b : Byte) (h : a ≠ a') :
    (m.store a b).byte a' = m.byte a' := by simp [Memory.byte_store, h]

theorem Memory.wf_tail {c : Host.Cell} {m : Memory} (h : Memory.wf (c :: m) = true) :
    Memory.wf m = true := by
  obtain ⟨k, d⟩ := c
  cases m with
  | nil => rfl
  | cons e m => obtain ⟨k', d'⟩ := e; simp_all [Memory.wf]

theorem Memory.wf_write {m : Memory} {a : Nat} (b : Byte) (h : m.wf = true) (ha : a < 2 ^ 32) :
    (m.write a b).wf = true := by
  induction m with
  | nil => simpa [Memory.write, Memory.wf] using ha
  | cons c m ih =>
    obtain ⟨k, d⟩ := c
    unfold Memory.write
    split
    · simp [Memory.wf, *]
    · split
      · subst_vars; cases m with
        | nil => simpa [Memory.wf] using ha
        | cons e m => obtain ⟨k', d'⟩ := e; simp_all [Memory.wf]
      · have hi := ih (Memory.wf_tail h)
        cases m with
        | nil =>
          have hk : k < a := by omega
          simp_all [Memory.write, Memory.wf]
        | cons e m =>
          obtain ⟨k', d'⟩ := e
          have hk : k < a := by omega
          have hkk : k < k' := by simp [Memory.wf] at h; exact h.1
          by_cases h1 : a < k'
          · simp_all [Memory.write, Memory.wf]
          · by_cases h2 : a = k'
            · simp_all [Memory.write, Memory.wf]
            · simp only [Memory.write, h1, h2, if_false] at hi ⊢
              simp [Memory.wf, hkk, hi]

/-- A store keeps the canonical form: every address is below 2^32. -/
theorem Memory.wf_store {m : Memory} (a : Word) (b : Byte) (h : m.wf = true) :
    (m.store a b).wf = true := Memory.wf_write b h a.isLt

/-- Reading finds nothing below the first address of a canonical list. -/
theorem Memory.read_below {m : Memory} {k a : Nat} {d : Byte} (h : Memory.wf ((k, d) :: m) = true)
    (ha : a ≤ k) : m.read a = none := by
  induction m generalizing k d with
  | nil => rfl
  | cons c m ih =>
    obtain ⟨k', d'⟩ := c
    have hk : k < k' := by simp [Memory.wf] at h; exact h.1
    have hne : k' ≠ a := by omega
    simpa [Memory.read, hne] using ih (Memory.wf_tail h) (by omega)

/-- Equal memories are equal data: two canonical lists that read alike are one list. -/
theorem Memory.ext_of_wf {m m' : Memory} (h : m.wf = true) (h' : m'.wf = true)
    (e : ∀ a, m.read a = m'.read a) : m = m' := by
  induction m generalizing m' with
  | nil =>
    cases m' with
    | nil => rfl
    | cons c m' => obtain ⟨k, d⟩ := c; simpa [Memory.read] using e k
  | cons c m ih =>
    obtain ⟨k, d⟩ := c
    cases m' with
    | nil => simpa [Memory.read] using e k
    | cons c' m' =>
      obtain ⟨k', d'⟩ := c'
      have hk : k = k' := by
        rcases Nat.lt_trichotomy k k' with hlt | heq | hgt
        · have := e k; simp [Memory.read, Nat.ne_of_gt hlt, Memory.read_below h' (Nat.le_of_lt hlt)] at this
        · exact heq
        · have := e k'; simp [Memory.read, Nat.ne_of_gt hgt, Memory.read_below h (Nat.le_of_lt hgt)] at this
      subst hk
      have hd : d = d' := by simpa [Memory.read] using e k
      subst hd
      congr 1
      refine ih (Memory.wf_tail h) (Memory.wf_tail h') fun a => ?_
      by_cases ha : k = a
      · subst ha; rw [Memory.read_below h (Nat.le_refl _), Memory.read_below h' (Nat.le_refl _)]
      · simpa [Memory.read, ha] using e a

end Sys2Proof.Machine
end

