-- ==== Sys2Proof/Laws/Ring.lean ====
section
/-! SUPPORT. The address generator: where an advanced cursor stands, and that a ring stays valid. -/

namespace Sys2Proof.Machine

/-- What `RingValid` says, in numbers (10_state.md R28). -/
theorem Ring.valid_iff (r : Ring) :
    r.valid = true ↔
      r.addr.toNat < r.endAddr.toNat ∧ r.addr.toNat ≤ r.rptr.toNat ∧ r.rptr.toNat < r.endAddr.toNat ∧
        r.addr.toNat ≤ r.wptr.toNat ∧ r.wptr.toNat < r.endAddr.toNat := by
  simp only [Ring.valid, Bool.and_eq_true, decide_eq_true_eq, BitVec.lt_def, BitVec.le_def]
  tauto

/-- Where an advanced cursor stands, as a number (20_memory.md R63). -/
theorem Ring.toNat_advance {r : Ring} (h : r.addr.toNat < r.endAddr.toNat) (cur : Word) (k : Nat) :
    (r.advance cur k).toNat
      = r.addr.toNat + (cur.toNat - r.addr.toNat + k) % (r.endAddr.toNat - r.addr.toNat) := by
  have hm := Nat.mod_lt (cur.toNat - r.addr.toNat + k) (show 0 < r.endAddr.toNat - r.addr.toNat by omega)
  have he := r.endAddr.isLt
  simp only [Ring.advance, BitVec.toNat_ofNat]
  exact Nat.mod_eq_of_lt (by omega)

/-- An advanced cursor is inside the region (20_memory.md R63). -/
theorem Ring.advance_mem {r : Ring} (h : r.addr.toNat < r.endAddr.toNat) (cur : Word) (k : Nat) :
    r.addr.toNat ≤ (r.advance cur k).toNat ∧ (r.advance cur k).toNat < r.endAddr.toNat := by
  have hm := Nat.mod_lt (cur.toNat - r.addr.toNat + k) (show 0 < r.endAddr.toNat - r.addr.toNat by omega)
  rw [Ring.toNat_advance h]
  omega

/-- Two advances are one by the sum. -/
theorem Ring.advance_advance {r : Ring} (h : r.addr.toNat < r.endAddr.toNat) (cur : Word) (j k : Nat) :
    r.advance (r.advance cur j) k = r.advance cur (j + k) := by
  apply BitVec.eq_of_toNat_eq
  rw [Ring.toNat_advance h, Ring.toNat_advance h, Ring.toNat_advance h, Nat.add_sub_cancel_left,
    Nat.mod_add_mod, Nat.add_assoc]

/-- Advancing by nothing leaves a cursor of the region where it is. -/
theorem Ring.advance_zero {r : Ring} {cur : Word} (h1 : r.addr.toNat ≤ cur.toNat)
    (h2 : cur.toNat < r.endAddr.toNat) : r.advance cur 0 = cur := by
  apply BitVec.eq_of_toNat_eq
  rw [Ring.toNat_advance (by omega), Nat.add_zero, Nat.mod_eq_of_lt (by omega)]
  omega

/-- The address generator reads `ADDR` and `END` only. -/
@[simp] theorem Ring.advance_with_rptr (r : Ring) (v cur : Word) (k : Nat) :
    Ring.advance { r with rptr := v } cur k = r.advance cur k := rfl
@[simp] theorem Ring.advance_with_wptr (r : Ring) (v cur : Word) (k : Nat) :
    Ring.advance { r with wptr := v } cur k = r.advance cur k := rfl

/-- Advancing the read cursor keeps a ring valid (20_memory.md R63). -/
theorem Ring.valid_advance_rptr {r : Ring} (h : r.valid = true) (cur : Word) (k : Nat) :
    Ring.valid { r with rptr := r.advance cur k } = true := by
  rw [Ring.valid_iff] at h ⊢
  have := Ring.advance_mem h.1 cur k
  exact ⟨h.1, this.1, this.2, h.2.2.2⟩

/-- Advancing the write cursor keeps a ring valid (20_memory.md R63). -/
theorem Ring.valid_advance_wptr {r : Ring} (h : r.valid = true) (cur : Word) (k : Nat) :
    Ring.valid { r with wptr := r.advance cur k } = true := by
  rw [Ring.valid_iff] at h ⊢
  have := Ring.advance_mem h.1 cur k
  exact ⟨h.1, h.2.1, h.2.2.1, this.1, this.2⟩

end Sys2Proof.Machine
end

