-- ==== Sys2Proof/Laws/State.lean ====
section
/-! SUPPORT. One lemma per field per update of State, so that no later proof unfolds an update. -/

namespace Sys2Proof.Machine

/-! ### `State.respondOn` and `State.respond` -/

@[simp] theorem State.respondOn_gain (s : State) (p : Port) (c : ResultCode) (d : Word) :
    (s.respondOn p c d).gain = s.gain := by cases p <;> rfl
@[simp] theorem State.respondOn_scaled (s : State) (p : Port) (c : ResultCode) (d : Word) :
    (s.respondOn p c d).scaled = s.scaled := by cases p <;> rfl
@[simp] theorem State.respondOn_act (s : State) (p : Port) (c : ResultCode) (d : Word) :
    (s.respondOn p c d).act = s.act := by cases p <;> rfl
@[simp] theorem State.respondOn_channels (s : State) (p : Port) (c : ResultCode) (d : Word) :
    (s.respondOn p c d).channels = s.channels := by cases p <;> rfl
@[simp] theorem State.respondOn_srcFmt (s : State) (p : Port) (c : ResultCode) (d : Word) :
    (s.respondOn p c d).srcFmt = s.srcFmt := by cases p <;> rfl
@[simp] theorem State.respondOn_sinkFmt (s : State) (p : Port) (c : ResultCode) (d : Word) :
    (s.respondOn p c d).sinkFmt = s.sinkFmt := by cases p <;> rfl
@[simp] theorem State.respondOn_resolved (s : State) (p : Port) (c : ResultCode) (d : Word) :
    (s.respondOn p c d).resolved = s.resolved := by cases p <;> rfl
@[simp] theorem State.respondOn_routine (s : State) (p : Port) (c : ResultCode) (d : Word) :
    (s.respondOn p c d).routine = s.routine := by cases p <;> rfl
@[simp] theorem State.respondOn_ringSrc (s : State) (p : Port) (c : ResultCode) (d : Word) :
    (s.respondOn p c d).ringSrc = s.ringSrc := by cases p <;> rfl
@[simp] theorem State.respondOn_ringSnk (s : State) (p : Port) (c : ResultCode) (d : Word) :
    (s.respondOn p c d).ringSnk = s.ringSnk := by cases p <;> rfl
@[simp] theorem State.respondOn_busy (s : State) (p : Port) (c : ResultCode) (d : Word) :
    (s.respondOn p c d).busy = s.busy := by cases p <;> rfl
@[simp] theorem State.respondOn_frames (s : State) (p : Port) (c : ResultCode) (d : Word) :
    (s.respondOn p c d).frames = s.frames := by cases p <;> rfl
@[simp] theorem State.respondOn_frameIdx (s : State) (p : Port) (c : ResultCode) (d : Word) :
    (s.respondOn p c d).frameIdx = s.frameIdx := by cases p <;> rfl
@[simp] theorem State.respondOn_chIdx (s : State) (p : Port) (c : ResultCode) (d : Word) :
    (s.respondOn p c d).chIdx = s.chIdx := by cases p <;> rfl
@[simp] theorem State.respondOn_mem (s : State) (p : Port) (c : ResultCode) (d : Word) :
    (s.respondOn p c d).mem = s.mem := by cases p <;> rfl
@[simp] theorem State.respondOn_port (s : State) (p : Port) (c : ResultCode) (d : Word) :
    (s.respondOn p c d).port = s.port := by cases p <;> rfl
@[simp] theorem State.respondOn_cmdHeld (s : State) (p : Port) (c : ResultCode) (d : Word) :
    (s.respondOn p c d).cmdHeld = s.cmdHeld := by cases p <;> rfl
@[simp] theorem State.respondOn_turns (s : State) (p : Port) (c : ResultCode) (d : Word) :
    (s.respondOn p c d).turns = s.turns := by cases p <;> rfl
@[simp] theorem State.respondOn_cmd_cmdOut (s : State) (c : ResultCode) (d : Word) :
    (s.respondOn .cmd c d).cmdOut = s.cmdOut ++ [responseWord c d] := rfl
@[simp] theorem State.respondOn_cmd_cfgOut (s : State) (c : ResultCode) (d : Word) :
    (s.respondOn .cmd c d).cfgOut = s.cfgOut := rfl
@[simp] theorem State.respondOn_cfg_cmdOut (s : State) (c : ResultCode) (d : Word) :
    (s.respondOn .cfg c d).cmdOut = s.cmdOut := rfl
@[simp] theorem State.respondOn_cfg_cfgOut (s : State) (c : ResultCode) (d : Word) :
    (s.respondOn .cfg c d).cfgOut = s.cfgOut ++ [responseWord c d] := rfl

@[simp] theorem State.respond_gain (s : State) (c : ResultCode) (d : Word) :
    (s.respond c d).gain = s.gain := by simp [State.respond]
@[simp] theorem State.respond_scaled (s : State) (c : ResultCode) (d : Word) :
    (s.respond c d).scaled = s.scaled := by simp [State.respond]
@[simp] theorem State.respond_act (s : State) (c : ResultCode) (d : Word) :
    (s.respond c d).act = s.act := by simp [State.respond]
@[simp] theorem State.respond_channels (s : State) (c : ResultCode) (d : Word) :
    (s.respond c d).channels = s.channels := by simp [State.respond]
@[simp] theorem State.respond_srcFmt (s : State) (c : ResultCode) (d : Word) :
    (s.respond c d).srcFmt = s.srcFmt := by simp [State.respond]
@[simp] theorem State.respond_sinkFmt (s : State) (c : ResultCode) (d : Word) :
    (s.respond c d).sinkFmt = s.sinkFmt := by simp [State.respond]
@[simp] theorem State.respond_resolved (s : State) (c : ResultCode) (d : Word) :
    (s.respond c d).resolved = s.resolved := by simp [State.respond]
@[simp] theorem State.respond_routine (s : State) (c : ResultCode) (d : Word) :
    (s.respond c d).routine = s.routine := by simp [State.respond]
@[simp] theorem State.respond_ringSrc (s : State) (c : ResultCode) (d : Word) :
    (s.respond c d).ringSrc = s.ringSrc := by simp [State.respond]
@[simp] theorem State.respond_ringSnk (s : State) (c : ResultCode) (d : Word) :
    (s.respond c d).ringSnk = s.ringSnk := by simp [State.respond]
@[simp] theorem State.respond_busy (s : State) (c : ResultCode) (d : Word) :
    (s.respond c d).busy = s.busy := by simp [State.respond]
@[simp] theorem State.respond_frames (s : State) (c : ResultCode) (d : Word) :
    (s.respond c d).frames = s.frames := by simp [State.respond]
@[simp] theorem State.respond_frameIdx (s : State) (c : ResultCode) (d : Word) :
    (s.respond c d).frameIdx = s.frameIdx := by simp [State.respond]
@[simp] theorem State.respond_chIdx (s : State) (c : ResultCode) (d : Word) :
    (s.respond c d).chIdx = s.chIdx := by simp [State.respond]
@[simp] theorem State.respond_mem (s : State) (c : ResultCode) (d : Word) :
    (s.respond c d).mem = s.mem := by simp [State.respond]
@[simp] theorem State.respond_port (s : State) (c : ResultCode) (d : Word) :
    (s.respond c d).port = s.port := by simp [State.respond]
@[simp] theorem State.respond_cmdHeld (s : State) (c : ResultCode) (d : Word) :
    (s.respond c d).cmdHeld = s.cmdHeld := by simp [State.respond]
@[simp] theorem State.respond_turns (s : State) (c : ResultCode) (d : Word) :
    (s.respond c d).turns = s.turns := by simp [State.respond]
theorem State.respond_of_cmd {s : State} (h : s.port = .cmd) (c : ResultCode) (d : Word) :
    s.respond c d = { s with cmdOut := s.cmdOut ++ [responseWord c d] } := by
  simp [State.respond, h, State.respondOn]
theorem State.respond_of_cfg {s : State} (h : s.port = .cfg) (c : ResultCode) (d : Word) :
    s.respond c d = { s with cfgOut := s.cfgOut ++ [responseWord c d] } := by
  simp [State.respond, h, State.respondOn]

/-! ### `State.setRing` -/

@[simp] theorem State.setRing_gain (s : State) (r : RingSel) (v : Ring) :
    (s.setRing r v).gain = s.gain := by cases r <;> rfl
@[simp] theorem State.setRing_scaled (s : State) (r : RingSel) (v : Ring) :
    (s.setRing r v).scaled = s.scaled := by cases r <;> rfl
@[simp] theorem State.setRing_act (s : State) (r : RingSel) (v : Ring) :
    (s.setRing r v).act = s.act := by cases r <;> rfl
@[simp] theorem State.setRing_channels (s : State) (r : RingSel) (v : Ring) :
    (s.setRing r v).channels = s.channels := by cases r <;> rfl
@[simp] theorem State.setRing_srcFmt (s : State) (r : RingSel) (v : Ring) :
    (s.setRing r v).srcFmt = s.srcFmt := by cases r <;> rfl
@[simp] theorem State.setRing_sinkFmt (s : State) (r : RingSel) (v : Ring) :
    (s.setRing r v).sinkFmt = s.sinkFmt := by cases r <;> rfl
@[simp] theorem State.setRing_resolved (s : State) (r : RingSel) (v : Ring) :
    (s.setRing r v).resolved = s.resolved := by cases r <;> rfl
@[simp] theorem State.setRing_routine (s : State) (r : RingSel) (v : Ring) :
    (s.setRing r v).routine = s.routine := by cases r <;> rfl
@[simp] theorem State.setRing_busy (s : State) (r : RingSel) (v : Ring) :
    (s.setRing r v).busy = s.busy := by cases r <;> rfl
@[simp] theorem State.setRing_frames (s : State) (r : RingSel) (v : Ring) :
    (s.setRing r v).frames = s.frames := by cases r <;> rfl
@[simp] theorem State.setRing_frameIdx (s : State) (r : RingSel) (v : Ring) :
    (s.setRing r v).frameIdx = s.frameIdx := by cases r <;> rfl
@[simp] theorem State.setRing_chIdx (s : State) (r : RingSel) (v : Ring) :
    (s.setRing r v).chIdx = s.chIdx := by cases r <;> rfl
@[simp] theorem State.setRing_mem (s : State) (r : RingSel) (v : Ring) :
    (s.setRing r v).mem = s.mem := by cases r <;> rfl
@[simp] theorem State.setRing_port (s : State) (r : RingSel) (v : Ring) :
    (s.setRing r v).port = s.port := by cases r <;> rfl
@[simp] theorem State.setRing_cmdHeld (s : State) (r : RingSel) (v : Ring) :
    (s.setRing r v).cmdHeld = s.cmdHeld := by cases r <;> rfl
@[simp] theorem State.setRing_cmdOut (s : State) (r : RingSel) (v : Ring) :
    (s.setRing r v).cmdOut = s.cmdOut := by cases r <;> rfl
@[simp] theorem State.setRing_cfgOut (s : State) (r : RingSel) (v : Ring) :
    (s.setRing r v).cfgOut = s.cfgOut := by cases r <;> rfl
@[simp] theorem State.setRing_turns (s : State) (r : RingSel) (v : Ring) :
    (s.setRing r v).turns = s.turns := by cases r <;> rfl
@[simp] theorem State.ring_setRing (s : State) (r : RingSel) (v : Ring) : (s.setRing r v).ring r = v := by
  cases r <;> rfl
theorem State.ring_setRing_ne (s : State) {r r' : RingSel} (v : Ring) (h : r ≠ r') :
    (s.setRing r v).ring r' = s.ring r' := by
  cases r <;> cases r' <;> first | rfl | exact absurd rfl h

/-! ### `State.nextSample` -/

@[simp] theorem State.nextSample_gain (s : State) :
    s.nextSample.gain = s.gain := by unfold State.nextSample; split <;> rfl
@[simp] theorem State.nextSample_scaled (s : State) :
    s.nextSample.scaled = s.scaled := by unfold State.nextSample; split <;> rfl
@[simp] theorem State.nextSample_act (s : State) :
    s.nextSample.act = s.act := by unfold State.nextSample; split <;> rfl
@[simp] theorem State.nextSample_channels (s : State) :
    s.nextSample.channels = s.channels := by unfold State.nextSample; split <;> rfl
@[simp] theorem State.nextSample_srcFmt (s : State) :
    s.nextSample.srcFmt = s.srcFmt := by unfold State.nextSample; split <;> rfl
@[simp] theorem State.nextSample_sinkFmt (s : State) :
    s.nextSample.sinkFmt = s.sinkFmt := by unfold State.nextSample; split <;> rfl
@[simp] theorem State.nextSample_resolved (s : State) :
    s.nextSample.resolved = s.resolved := by unfold State.nextSample; split <;> rfl
@[simp] theorem State.nextSample_routine (s : State) :
    s.nextSample.routine = s.routine := by unfold State.nextSample; split <;> rfl
@[simp] theorem State.nextSample_ringSrc (s : State) :
    s.nextSample.ringSrc = s.ringSrc := by unfold State.nextSample; split <;> rfl
@[simp] theorem State.nextSample_ringSnk (s : State) :
    s.nextSample.ringSnk = s.ringSnk := by unfold State.nextSample; split <;> rfl
@[simp] theorem State.nextSample_busy (s : State) :
    s.nextSample.busy = s.busy := by unfold State.nextSample; split <;> rfl
@[simp] theorem State.nextSample_frames (s : State) :
    s.nextSample.frames = s.frames := by unfold State.nextSample; split <;> rfl
@[simp] theorem State.nextSample_mem (s : State) :
    s.nextSample.mem = s.mem := by unfold State.nextSample; split <;> rfl
@[simp] theorem State.nextSample_port (s : State) :
    s.nextSample.port = s.port := by unfold State.nextSample; split <;> rfl
@[simp] theorem State.nextSample_cmdHeld (s : State) :
    s.nextSample.cmdHeld = s.cmdHeld := by unfold State.nextSample; split <;> rfl
@[simp] theorem State.nextSample_cmdOut (s : State) :
    s.nextSample.cmdOut = s.cmdOut := by unfold State.nextSample; split <;> rfl
@[simp] theorem State.nextSample_cfgOut (s : State) :
    s.nextSample.cfgOut = s.cfgOut := by unfold State.nextSample; split <;> rfl
@[simp] theorem State.nextSample_turns (s : State) :
    s.nextSample.turns = s.turns := by unfold State.nextSample; split <;> rfl
theorem State.nextSample_of_lt {s : State} (h : s.chIdx.toNat + 1 < s.channels.toNat) :
    s.nextSample = { s with chIdx := s.chIdx + 1 } := if_pos h
theorem State.nextSample_of_ge {s : State} (h : ¬ s.chIdx.toNat + 1 < s.channels.toNat) :
    s.nextSample = { s with chIdx := 0, frameIdx := s.frameIdx + 1 } := if_neg h

/-! ### `State.completePeriod` and `State.resetInput` -/

@[simp] theorem State.completePeriod_gain (s : State) :
    s.completePeriod.gain = s.gain := rfl
@[simp] theorem State.completePeriod_scaled (s : State) :
    s.completePeriod.scaled = s.scaled := rfl
@[simp] theorem State.completePeriod_act (s : State) :
    s.completePeriod.act = s.act := rfl
@[simp] theorem State.completePeriod_channels (s : State) :
    s.completePeriod.channels = s.channels := rfl
@[simp] theorem State.completePeriod_srcFmt (s : State) :
    s.completePeriod.srcFmt = s.srcFmt := rfl
@[simp] theorem State.completePeriod_sinkFmt (s : State) :
    s.completePeriod.sinkFmt = s.sinkFmt := rfl
@[simp] theorem State.completePeriod_resolved (s : State) :
    s.completePeriod.resolved = s.resolved := rfl
@[simp] theorem State.completePeriod_routine (s : State) :
    s.completePeriod.routine = s.routine := rfl
@[simp] theorem State.completePeriod_ringSrc (s : State) :
    s.completePeriod.ringSrc = s.ringSrc := rfl
@[simp] theorem State.completePeriod_ringSnk (s : State) :
    s.completePeriod.ringSnk = s.ringSnk := rfl
@[simp] theorem State.completePeriod_frames (s : State) :
    s.completePeriod.frames = s.frames := rfl
@[simp] theorem State.completePeriod_frameIdx (s : State) :
    s.completePeriod.frameIdx = s.frameIdx := rfl
@[simp] theorem State.completePeriod_chIdx (s : State) :
    s.completePeriod.chIdx = s.chIdx := rfl
@[simp] theorem State.completePeriod_mem (s : State) :
    s.completePeriod.mem = s.mem := rfl
@[simp] theorem State.completePeriod_port (s : State) :
    s.completePeriod.port = s.port := rfl
@[simp] theorem State.completePeriod_cmdHeld (s : State) :
    s.completePeriod.cmdHeld = s.cmdHeld := rfl
@[simp] theorem State.completePeriod_cfgOut (s : State) :
    s.completePeriod.cfgOut = s.cfgOut := rfl
@[simp] theorem State.completePeriod_turns (s : State) :
    s.completePeriod.turns = s.turns := rfl
@[simp] theorem State.completePeriod_busy (s : State) : s.completePeriod.busy = false := rfl
@[simp] theorem State.completePeriod_cmdOut (s : State) :
    s.completePeriod.cmdOut = s.cmdOut ++ [responseWord .ok 0] := rfl

@[simp] theorem State.resetInput_gain (s : State) : s.resetInput.gain = State.reset.gain := rfl
@[simp] theorem State.resetInput_scaled (s : State) : s.resetInput.scaled = State.reset.scaled := rfl
@[simp] theorem State.resetInput_act (s : State) : s.resetInput.act = State.reset.act := rfl
@[simp] theorem State.resetInput_channels (s : State) : s.resetInput.channels = State.reset.channels := rfl
@[simp] theorem State.resetInput_srcFmt (s : State) : s.resetInput.srcFmt = State.reset.srcFmt := rfl
@[simp] theorem State.resetInput_sinkFmt (s : State) : s.resetInput.sinkFmt = State.reset.sinkFmt := rfl
@[simp] theorem State.resetInput_resolved (s : State) : s.resetInput.resolved = State.reset.resolved := rfl
@[simp] theorem State.resetInput_routine (s : State) : s.resetInput.routine = State.reset.routine := rfl
@[simp] theorem State.resetInput_ringSrc (s : State) : s.resetInput.ringSrc = State.reset.ringSrc := rfl
@[simp] theorem State.resetInput_ringSnk (s : State) : s.resetInput.ringSnk = State.reset.ringSnk := rfl
@[simp] theorem State.resetInput_busy (s : State) : s.resetInput.busy = State.reset.busy := rfl
@[simp] theorem State.resetInput_frames (s : State) : s.resetInput.frames = State.reset.frames := rfl
@[simp] theorem State.resetInput_frameIdx (s : State) : s.resetInput.frameIdx = State.reset.frameIdx := rfl
@[simp] theorem State.resetInput_chIdx (s : State) : s.resetInput.chIdx = State.reset.chIdx := rfl
@[simp] theorem State.resetInput_mem (s : State) : s.resetInput.mem = s.mem := rfl
@[simp] theorem State.resetInput_port (s : State) : s.resetInput.port = State.reset.port := rfl
@[simp] theorem State.resetInput_cmdHeld (s : State) : s.resetInput.cmdHeld = State.reset.cmdHeld := rfl
@[simp] theorem State.resetInput_cmdOut (s : State) : s.resetInput.cmdOut = s.cmdOut := rfl
@[simp] theorem State.resetInput_cfgOut (s : State) : s.resetInput.cfgOut = s.cfgOut := rfl
@[simp] theorem State.resetInput_turns (s : State) : s.resetInput.turns = s.turns := rfl

/-! ### Ring fields -/

@[simp] theorem Ring.get_set_addr (r : Ring) (f : RingField) (v : Word) :
    (r.set f v).addr = if f = .addr then v else r.addr := by cases f <;> rfl
@[simp] theorem Ring.get_set_endAddr (r : Ring) (f : RingField) (v : Word) :
    (r.set f v).endAddr = if f = .endAddr then v else r.endAddr := by cases f <;> rfl
@[simp] theorem Ring.get_set_rptr (r : Ring) (f : RingField) (v : Word) :
    (r.set f v).rptr = if f = .rptr then v else r.rptr := by cases f <;> rfl
@[simp] theorem Ring.get_set_wptr (r : Ring) (f : RingField) (v : Word) :
    (r.set f v).wptr = if f = .wptr then v else r.wptr := by cases f <;> rfl
@[simp] theorem Ring.get_set_self (r : Ring) (f : RingField) (v : Word) : (r.set f v).get f = v := by
  cases f <;> rfl

end Sys2Proof.Machine
end

