-- ==== Sys2Proof/Laws/SampleStep.lean ====
section
/-! SUPPORT. What `RbRead`, `RbWrite`, a sample step and a step of a routine can do. -/

namespace Sys2Proof.Machine

open Sys2Proof.Config (Params)

/-- The bytes of a window, in ring order. -/
def Memory.window (m : Memory) (r : Ring) (pos : Word) (n : Nat) : List Byte :=
  (List.range n).map fun j => m.byte (r.advance pos j)

/-- The memory after bytes are stored from a ring position on, in ring order with wrap. -/
def Memory.storeWindow (m : Memory) (r : Ring) (pos : Word) : List Byte → Memory
  | [] => m
  | b :: bs => Memory.storeWindow (m.store pos b) r (r.advance pos 1) bs

theorem Memory.window_length (m : Memory) (r : Ring) (pos : Word) (n : Nat) :
    (m.window r pos n).length = n := by simp [Memory.window]

/-- `RbRead(n)` on a valid source ring: the window's bytes, the read cursor advanced by `n`, nothing
else changed (20_memory.md R64). -/
theorem State.rbRead_eq (n : Nat) {s : State} (h : s.ringSrc.valid = true) :
    State.rbRead n s =
      (s.mem.window s.ringSrc s.ringSrc.rptr n,
        { s with ringSrc := { s.ringSrc with rptr := s.ringSrc.advance s.ringSrc.rptr n } }) := by
  induction n generalizing s with
  | zero =>
    have hv := (Ring.valid_iff _).1 h
    simp [State.rbRead, Memory.window, Ring.advance_zero hv.2.1 hv.2.2.1]
  | succ n ih =>
    have hv := (Ring.valid_iff _).1 h
    have := ih (s := { s with ringSrc := { s.ringSrc with rptr := s.ringSrc.advance s.ringSrc.rptr 1 } })
      (Ring.valid_advance_rptr h _ _)
    simp only [State.rbRead, this]
    simp [Memory.window, List.range_succ_eq_map, Ring.advance_advance hv.1, Function.comp_def,
      Ring.advance_zero hv.2.1 hv.2.2.1, Nat.add_comm, Nat.succ_eq_add_one]

/-- `RbRead(n)` on any state: only the read cursor of the source ring changes. -/
theorem State.rbRead_frame (n : Nat) (s : State) :
    ∃ v, (State.rbRead n s).2 = { s with ringSrc := { s.ringSrc with rptr := v } } := by
  induction n generalizing s with
  | zero => exact ⟨s.ringSrc.rptr, rfl⟩
  | succ n ih =>
    obtain ⟨v, hv⟩ := ih { s with ringSrc := { s.ringSrc with rptr := s.ringSrc.advance s.ringSrc.rptr 1 } }
    exact ⟨v, by simp only [State.rbRead, hv]⟩

/-- `RbRead(n)` gives `n` bytes. -/
theorem State.rbRead_length (n : Nat) (s : State) : (State.rbRead n s).1.length = n := by
  induction n generalizing s with
  | zero => rfl
  | succ n ih => simp [State.rbRead, ih]

/-- `RbWrite` on a valid sink ring: the bytes stored from the write cursor on, the cursor advanced by
their number, nothing else changed (20_memory.md R65). -/
theorem State.rbWrite_eq (bs : List Byte) {s : State} (h : s.ringSnk.valid = true) :
    State.rbWrite bs s =
      { s with
        mem := s.mem.storeWindow s.ringSnk s.ringSnk.wptr bs
        ringSnk := { s.ringSnk with wptr := s.ringSnk.advance s.ringSnk.wptr bs.length } } := by
  induction bs generalizing s with
  | nil =>
    have hv := (Ring.valid_iff _).1 h
    simp [State.rbWrite, Memory.storeWindow, Ring.advance_zero hv.2.2.2.1 hv.2.2.2.2]
  | cons b bs ih =>
    have hv := (Ring.valid_iff _).1 h
    rw [State.rbWrite, ih (Ring.valid_advance_wptr h _ _)]
    have hw : ∀ (r : Ring) (v : Word) (m : Memory) (q : Word) (l : List Byte),
        Memory.storeWindow m { r with wptr := v } q l = Memory.storeWindow m r q l := by
      intro r v m q l
      induction l generalizing m q with
      | nil => rfl
      | cons c l ih' => simp only [Memory.storeWindow, ih', Ring.advance_with_wptr]
    simp [Memory.storeWindow, hw, Ring.advance_advance hv.1, Nat.add_comm]

/-- `RbWrite` on any state: only the memory and the write cursor of the sink ring change. -/
theorem State.rbWrite_frame (bs : List Byte) (s : State) :
    ∃ m v, State.rbWrite bs s = { s with mem := m, ringSnk := { s.ringSnk with wptr := v } } := by
  induction bs generalizing s with
  | nil => exact ⟨s.mem, s.ringSnk.wptr, rfl⟩
  | cons b bs ih =>
    obtain ⟨m, v, h⟩ := ih
      { s with
        mem := s.mem.store s.ringSnk.wptr b
        ringSnk := { s.ringSnk with wptr := s.ringSnk.advance s.ringSnk.wptr 1 } }
    exact ⟨m, v, by rw [State.rbWrite, h]⟩

theorem Memory.wf_storeWindow {m : Memory} (h : m.wf = true) (r : Ring) (pos : Word) (bs : List Byte) :
    (m.storeWindow r pos bs).wf = true := by
  induction bs generalizing m pos with
  | nil => exact h
  | cons b bs ih => exact ih (Memory.wf_store _ _ h) _

/-- `RbWrite` keeps the canonical form of the memory. -/
theorem State.rbWrite_wf (bs : List Byte) {s : State} (h : s.mem.wf = true) :
    (State.rbWrite bs s).mem.wf = true := by
  induction bs generalizing s with
  | nil => exact h
  | cons b bs ih => exact ih (Memory.wf_store _ _ h)

/-- A store of a window leaves every byte outside the window. -/
theorem Memory.byte_storeWindow_ne {r : Ring} (h : r.addr.toNat < r.endAddr.toNat) (m : Memory)
    (pos a : Word) (bs : List Byte) (h1 : r.addr.toNat ≤ pos.toNat) (h2 : pos.toNat < r.endAddr.toNat)
    (ha : ∀ j < bs.length, a ≠ r.advance pos j) :
    (m.storeWindow r pos bs).byte a = m.byte a := by
  induction bs generalizing m pos with
  | nil => rfl
  | cons b bs ih =>
    have hm := Ring.advance_mem h pos 1
    have h0 := ha 0 (by simp)
    rw [Ring.advance_zero h1 h2] at h0
    rw [Memory.storeWindow, ih _ _ hm.1 hm.2, Memory.byte_store_ne _ _ (Ne.symm h0)]
    intro j hj
    rw [Ring.advance_advance h]
    exact ha _ (by simp; omega)

/-- Byte `j` of a stored window, when no later byte of the window lands on the same address. -/
theorem Memory.byte_storeWindow {r : Ring} (h : r.addr.toNat < r.endAddr.toNat) (m : Memory)
    (pos : Word) (bs : List Byte) (h1 : r.addr.toNat ≤ pos.toNat) (h2 : pos.toNat < r.endAddr.toNat)
    (j : Nat) (hj : j < bs.length)
    (hlast : ∀ k, j < k → k < bs.length → r.advance pos j ≠ r.advance pos k) :
    (m.storeWindow r pos bs).byte (r.advance pos j) = bs[j] := by
  induction bs generalizing m pos j with
  | nil => simp at hj
  | cons b bs ih =>
    have hm := Ring.advance_mem h pos 1
    cases j with
    | zero =>
      rw [Memory.storeWindow, Memory.byte_storeWindow_ne h _ _ _ _ hm.1 hm.2, Ring.advance_zero h1 h2]
      · simp
      · intro k hk
        rw [Ring.advance_advance h]
        exact hlast _ (by omega) (by simp; omega)
    | succ j =>
      have := ih (m.store pos b) (r.advance pos 1) hm.1 hm.2 j (by simpa using hj) (by
        intro k hk hk'
        simp only [Ring.advance_advance h]
        have := hlast (k + 1) (by omega) (by simpa using hk')
        rwa [Nat.add_comm 1 j, Nat.add_comm 1 k])
      rw [Ring.advance_advance h, Nat.add_comm] at this
      simpa [Memory.storeWindow] using this

theorem leBytes_length (n c : Nat) : (leBytes n c).length = n := by
  induction n generalizing c with
  | zero => rfl
  | succ n ih => simp [leBytes, ih]

theorem bytesOf_length (o : ByteOrder) (n c : Nat) : (bytesOf o n c).length = n := by
  cases o <;> simp [bytesOf, leBytes_length]

/-- `SampleStep` on valid rings, 42_datapath.md R160: the one thing it does. -/
theorem State.sampleStep_eq (p : Params) (src snk : SampleFormat) (ch : Fin hw.maxCh) {s : State}
    (h0 : s.ringSrc.valid = true) (h1 : s.ringSnk.valid = true) :
    State.sampleStep p src snk ch s =
      { s with
        ringSrc := { s.ringSrc with rptr := s.ringSrc.advance s.ringSrc.rptr (containerBytes src) }
        mem := s.mem.storeWindow s.ringSnk s.ringSnk.wptr
          (bytesOf p.byteOrder (containerBytes snk)
            (containerOf snk
              (conv p src snk
                (valueOf p.byteOrder (s.mem.window s.ringSrc s.ringSrc.rptr (containerBytes src)))
                (s.multiplier p ch))))
        ringSnk := { s.ringSnk with wptr := s.ringSnk.advance s.ringSnk.wptr (containerBytes snk) } } := by
  simp only [State.sampleStep, State.rbRead_eq _ h0]
  rw [State.rbWrite_eq]
  · simp only [bytesOf_length]; rfl
  · exact h1

/-- `SampleStep` on any state: only the memory, the source read cursor and the sink write cursor change. -/
theorem State.sampleStep_frame (p : Params) (src snk : SampleFormat) (ch : Fin hw.maxCh) (s : State) :
    ∃ m v w, State.sampleStep p src snk ch s =
      { s with
        mem := m, ringSrc := { s.ringSrc with rptr := v }, ringSnk := { s.ringSnk with wptr := w } } := by
  simp only [State.sampleStep]
  obtain ⟨v, hv⟩ := State.rbRead_frame (containerBytes src) s
  rw [hv]
  obtain ⟨m, w, hw⟩ := State.rbWrite_frame _ { s with ringSrc := { s.ringSrc with rptr := v } }
  exact ⟨m, v, w, hw⟩

/-- `SampleStep` keeps the canonical form of the memory. -/
theorem State.sampleStep_wf (p : Params) (src snk : SampleFormat) (ch : Fin hw.maxCh) {s : State}
    (h : s.mem.wf = true) : (State.sampleStep p src snk ch s).mem.wf = true := by
  simp only [State.sampleStep]
  obtain ⟨v, hv⟩ := State.rbRead_frame (containerBytes src) s
  exact State.rbWrite_wf _ (by rw [hv]; exact h)

/-- A step of a routine: it answers a next state exactly when `CH_IDX` names a channel, and then it is
the sample step of that channel and the counters' advance (44_dispatch_facade.md R215). -/
theorem State.routineStep_next_iff (p : Params) (src snk : SampleFormat) (s t : State) :
    State.routineStep p src snk s = .next t ↔
      ∃ ch, channelIndex s.chIdx = some ch ∧ t = (State.sampleStep p src snk ch s).nextSample := by
  unfold State.routineStep
  cases channelIndex s.chIdx <;> simp [eq_comm]

/-- The one way a step of a routine stops. -/
theorem State.routineStep_fault_iff (p : Params) (src snk : SampleFormat) (s : State) (f : Fault) :
    State.routineStep p src snk s = .fault f ↔ channelIndex s.chIdx = none ∧ f = .noChannel := by
  unfold State.routineStep
  cases channelIndex s.chIdx <;> simp [eq_comm]

theorem State.routineStep_not_refused (p : Params) (src snk : SampleFormat) (s : State) (r : Refusal) :
    State.routineStep p src snk s ≠ .refused r := by
  unfold State.routineStep
  cases channelIndex s.chIdx <;> simp

theorem channelIndex_of_lt {a : BitVec 8} (h : a.toNat < hw.maxCh) :
    channelIndex a = some ⟨a.toNat, h⟩ := by simp only [channelIndex, h, dif_pos]

theorem channelIndex_of_ge {a : BitVec 8} (h : ¬ a.toNat < hw.maxCh) : channelIndex a = none := by
  simp only [channelIndex, h, dif_neg, not_false_eq_true]

end Sys2Proof.Machine
end

