-- ==== Sys2Proof/Laws/Commands.lean ====
section
/-! SUPPORT. What executing a command can do, said once; what a conversion routine is, said once. -/

namespace Sys2Proof.Machine

open Sys2Proof.Safety

/-! ### Operand forms -/

theorem ringSel_eq_none {a : BitVec 8} : ringSel a = none ↔ 1 < a.toNat := by
  unfold ringSel; split <;> simp_all; omega

theorem ringField_eq_none {b : BitVec 8} : ringField b = none ↔ 3 < b.toNat := by
  unfold ringField; split <;> simp_all; omega

theorem gainSel_eq_none {b : BitVec 8} : gainSel b = none ↔ 2 < b.toNat := by
  unfold gainSel; split <;> simp_all; omega

theorem formatOf_eq_none {c : Nat} : formatOf c = none ↔ 2 < c := by
  unfold formatOf; split <;> simp_all; omega

theorem formatOf_eq_some {c : Nat} {f : SampleFormat} : formatOf c = some f ↔ c = formatCode f := by
  unfold formatOf; split <;> cases f <;> simp_all [formatCode]

/-- Check 1 of 60_exceptions.md R247 passes on CMD. -/
theorem State.onCmd_of_cmd {s : State} (h : s.port = .cmd) (body : Result) : s.onCmd body = body := by
  simp only [State.onCmd, h]

/-- Check 1 of 60_exceptions.md R247 fails on CFG. -/
theorem State.onCmd_of_cfg {s : State} (h : s.port = .cfg) (body : Result) :
    s.onCmd body = s.raise .badCommand := by
  simp only [State.onCmd, h]

/-! ### The routines -/

/-- Every routine is one step of the period with its pair's row (43_conversion_routines.md R199). -/
theorem exec_routine (src snk : SampleFormat) (s : State) :
    exec (src.routine snk) s = State.routineStep hw src snk s := by
  cases src <;> cases snk <;> rfl

/-- A dispatch key selects routines only (30_encoding.md R99). -/
theorem decode_key_routine {k : BitVec 4} {i : Instr} (h : decode (.key k) = some i) :
    ∃ src snk : SampleFormat, i = src.routine snk := by
  simp only [decode, decodeKey] at h
  split at h <;> simp only [Option.some.injEq, reduceCtorEq] at h <;> subst h
  · exact ⟨.s16, .s16, rfl⟩
  · exact ⟨.s16, .s24, rfl⟩
  · exact ⟨.s16, .s32, rfl⟩
  · exact ⟨.s24, .s16, rfl⟩
  · exact ⟨.s24, .s24, rfl⟩
  · exact ⟨.s24, .s32, rfl⟩
  · exact ⟨.s32, .s16, rfl⟩
  · exact ⟨.s32, .s24, rfl⟩
  · exact ⟨.s32, .s32, rfl⟩

theorem ifZero_eq_some {n : Nat} {f : BitVec n} {o : Option Instr} {i : Instr} :
    ifZero f o = some i ↔ f = 0 ∧ o = some i := by
  unfold ifZero; split <;> simp_all

/-- A command word never selects a routine (30_encoding.md R99). -/
theorem decode_word_not_routine {w : Packet} {i : Instr} (h : decode (.word w) = some i)
    (src snk : SampleFormat) : i ≠ src.routine snk := by
  simp only [decode, decodeWord, ifZero_eq_some, decodeFields] at h
  obtain ⟨-, h⟩ := h
  rintro rfl
  split at h <;> cases src <;> cases snk <;>
    simp [ifZero_eq_some, SampleFormat.routine] at h

/-! ### The commands -/

/-- Everything executing a command can do to a state: a response that reports a failure, a response
that carries a value, or the one update of the command with the response `OK`. PROCESS is accepted
without a response. -/
inductive CommandEffect (i : Instr) (s : State) : State → Prop where
  | failed (c : ResultCode) (hc : c ≠ .ok) : CommandEffect i s (s.respond c 0)
  | read (d : Word) (hp : s.port = .cmd)
      (hi : i = .getst ∨ (∃ a b, i = .rbget a b) ∨ ∃ a b, i = .getgain a b) :
      CommandEffect i s (s.respond .ok d)
  | strmcfg (n : BitVec 8) (hi : i = .strmcfg n) (hp : s.port = .cmd) (hn : n.toNat ≤ hw.maxCh) :
      CommandEffect i s ({ s with channels := n, resolved := false }.respond .ok 0)
  | strmfree (hi : i = .strmfree) (hp : s.port = .cmd) :
      CommandEffect i s ({ s with channels := 0, resolved := false }.respond .ok 0)
  | negotiate (a b : BitVec 8) (hi : i = .negotiate a b) (hp : s.port = .cmd) (ha : a.toNat ≤ 2)
      (hb : b.toNat ≤ 2) :
      CommandEffect i s
        ({ s with
            srcFmt := a.setWidth 2
            sinkFmt := b.setWidth 2
            routine := BitVec.ofNat 4 (3 * a.toNat + b.toNat)
            resolved := true }.respond .ok 0)
  | process (f : Word) (hi : i = .process f) (hp : s.port = .cmd) (hr : s.resolved = true)
      (h0 : s.ringSrc.valid = true) (h1 : s.ringSnk.valid = true) :
      CommandEffect i s { s with act := s.scaled, frames := f, frameIdx := 0, chIdx := 0, busy := true }
  | configure (a : BitVec 8) (v : Word) (hi : i = .configure a v) (ha : a.toNat < hw.maxCh) :
      CommandEffect i s
        ({ s with
            gain := s.gain.set a.toNat (BitVec.ofNat 32 (clampGain hw v)) ha
            scaled := s.scaled.set a.toNat (BitVec.ofNat 32 (rescaleGain hw (clampGain hw v))) ha
          }.respond .ok 0)
  | rbset (a b : BitVec 8) (v : Word) (r : RingSel) (f : RingField) (hi : i = .rbset a b v)
      (hp : s.port = .cmd) (ha : ringSel a = some r) (hb : ringField b = some f) :
      CommandEffect i s ((s.setRing r ((s.ring r).set f v)).respond .ok 0)
  | advance (a : BitVec 8) (n : Word) (r : RingSel) (f : RingField)
      (hi : i = .rbadvr a n ∧ f = .rptr ∨ i = .rbadvw a n ∧ f = .wptr) (hp : s.port = .cmd)
      (ha : ringSel a = some r) (hv : (s.ring r).valid = true) :
      CommandEffect i s
        ((s.setRing r ((s.ring r).set f ((s.ring r).advance ((s.ring r).get f) n.toNat))).respond .ok 0)

/-- A command that only CMD may carry does what `body` does, or is answered `ERR_BAD_COMMAND`. -/
theorem CommandEffect.of_onCmd {i : Instr} {s : State} {body : Result}
    (h : s.port = .cmd → ∃ t, body = .next t ∧ CommandEffect i s t) :
    ∃ t, s.onCmd body = .next t ∧ CommandEffect i s t := by
  cases hp : s.port with
  | cmd => rw [State.onCmd_of_cmd hp]; exact h hp
  | cfg => rw [State.onCmd_of_cfg hp]; exact ⟨_, rfl, .failed .badCommand (by decide)⟩

theorem CommandEffect.of_raise {i : Instr} {s : State} (c : ResultCode) (hc : c ≠ .ok) :
    ∃ t, s.raise c = .next t ∧ CommandEffect i s t := ⟨_, rfl, .failed c hc⟩

theorem CommandEffect.of_advanceCursor {i : Instr} {s : State} (hp : s.port = .cmd) (a : BitVec 8)
    (n : Word) (f : RingField) (hi : i = .rbadvr a n ∧ f = .rptr ∨ i = .rbadvw a n ∧ f = .wptr) :
    ∃ t, State.advanceCursor a f n s = .next t ∧ CommandEffect i s t := by
  unfold State.advanceCursor
  split
  · exact CommandEffect.of_raise _ (by decide)
  · split
    · exact CommandEffect.of_raise _ (by decide)
    · exact ⟨_, rfl, .advance a n _ f hi hp ‹_› (by simp_all)⟩

/-- Executing a command answers a next state, by one of the effects of a command. -/
theorem exec_command {i : Instr} (hi : ∀ src snk : SampleFormat, i ≠ src.routine snk) (s : State) :
    ∃ t, exec i s = .next t ∧ CommandEffect i s t := by
  cases i with
  | strmcfg n =>
    refine CommandEffect.of_onCmd fun hp => ?_
    split
    · exact CommandEffect.of_raise _ (by decide)
    · exact ⟨_, rfl, .strmcfg n rfl hp (by omega)⟩
  | strmfree => exact CommandEffect.of_onCmd fun hp => ⟨_, rfl, .strmfree rfl hp⟩
  | negotiate a b =>
    refine CommandEffect.of_onCmd fun hp => ?_
    split
    · exact CommandEffect.of_raise _ (by decide)
    · rename_i h
      simp only [Bool.or_eq_true, Option.isNone_iff_eq_none, formatOf_eq_none] at h
      exact ⟨_, rfl, .negotiate a b rfl hp (by omega) (by omega)⟩
  | process f =>
    refine CommandEffect.of_onCmd fun hp => ?_
    split
    · exact CommandEffect.of_raise _ (by decide)
    · split
      · exact CommandEffect.of_raise _ (by decide)
      · rename_i hr hv
        simp only [not_or, Bool.not_eq_false] at hr hv
        exact ⟨_, rfl, .process f rfl hp hr hv.1 hv.2⟩
  | configure a v =>
    simp only [exec, execConfigure]
    by_cases ha : a.toNat < hw.maxCh
    · rw [channelIndex_of_lt ha]; exact ⟨_, rfl, .configure a v rfl ha⟩
    · rw [channelIndex_of_ge ha]; exact CommandEffect.of_raise _ (by decide)
  | rbset a b v =>
    refine CommandEffect.of_onCmd fun hp => ?_
    split
    · exact ⟨_, rfl, .rbset a b v _ _ rfl hp ‹_› ‹_›⟩
    · exact CommandEffect.of_raise _ (by decide)
  | rbget a b =>
    refine CommandEffect.of_onCmd fun hp => ?_
    split
    · exact ⟨_, rfl, .read _ hp (.inr (.inl ⟨a, b, rfl⟩))⟩
    · exact CommandEffect.of_raise _ (by decide)
  | rbadvr a n => exact CommandEffect.of_onCmd fun hp => CommandEffect.of_advanceCursor hp a n .rptr (.inl ⟨rfl, rfl⟩)
  | rbadvw a n => exact CommandEffect.of_onCmd fun hp => CommandEffect.of_advanceCursor hp a n .wptr (.inr ⟨rfl, rfl⟩)
  | getst => exact CommandEffect.of_onCmd fun hp => ⟨_, rfl, .read _ hp (.inl rfl)⟩
  | getgain a b =>
    refine CommandEffect.of_onCmd fun hp => ?_
    split
    · exact ⟨_, rfl, .read _ hp (.inr (.inr ⟨a, b, rfl⟩))⟩
    · exact CommandEffect.of_raise _ (by decide)
  | convS16S16 => exact absurd rfl (hi .s16 .s16)
  | convS16S24 => exact absurd rfl (hi .s16 .s24)
  | convS16S32 => exact absurd rfl (hi .s16 .s32)
  | convS24S16 => exact absurd rfl (hi .s24 .s16)
  | convS24S24 => exact absurd rfl (hi .s24 .s24)
  | convS24S32 => exact absurd rfl (hi .s24 .s32)
  | convS32S16 => exact absurd rfl (hi .s32 .s16)
  | convS32S24 => exact absurd rfl (hi .s32 .s24)
  | convS32S32 => exact absurd rfl (hi .s32 .s32)

/-- Accepting a word answers a next state: `ERR_BAD_COMMAND` for an illegal one (30_encoding.md R98),
else one of the effects of its command. -/
theorem State.accept_effect (p : Port) (w : Packet) (s : State) :
    ∃ t, State.accept p w s = .next t ∧
      (decode (.word w) = none ∧ t = { s with port := p }.respond .badCommand 0 ∨
        ∃ i, decode (.word w) = some i ∧ CommandEffect i { s with port := p } t) := by
  unfold State.accept
  cases hd : decode (.word w) with
  | none => exact ⟨_, rfl, .inl ⟨rfl, rfl⟩⟩
  | some i =>
    obtain ⟨t, ht, he⟩ := exec_command (decode_word_not_routine hd) { s with port := p }
    exact ⟨t, ht, .inr ⟨i, rfl, he⟩⟩

end Sys2Proof.Machine
end

