-- ==== Sys2Proof/Laws/Datapath.lean ====
section
/-! SUPPORT. The arithmetic of the datapath: the rounding shift, saturation and pre-alignment. -/

namespace Sys2Proof.Machine

theorem rnd_of_nonneg {p : Int} {t : Nat} (ht : 0 < t) (hp : 0 ≤ p) :
    rnd p t = (p + 2 ^ (t - 1)) / 2 ^ t := by
  unfold rnd; rw [if_neg (by omega), if_pos hp]

theorem rnd_of_neg {p : Int} {t : Nat} (ht : 0 < t) (hp : p < 0) :
    rnd p t = -((-p + 2 ^ (t - 1)) / 2 ^ t) := by
  unfold rnd; rw [if_neg (by omega), if_neg (by omega)]

/-- A common power of two leaves the rounding. -/
theorem rnd_scale (p : Int) (t k : Nat) (ht : 0 < t) : rnd (p * 2 ^ k) (t + k) = rnd p t := by
  have h2 : (0 : Int) < 2 ^ k := by positivity
  have e1 : (2 : Int) ^ (t + k - 1) = 2 ^ (t - 1) * 2 ^ k := by rw [← pow_add]; congr 1; omega
  have e2 : (2 : Int) ^ (t + k) = 2 ^ t * 2 ^ k := pow_add _ _ _
  by_cases hp : 0 ≤ p
  · rw [rnd_of_nonneg (by omega) (by positivity), rnd_of_nonneg ht hp, e1, e2, ← add_mul,
      Int.mul_ediv_mul_of_pos_left _ _ h2]
  · rw [rnd_of_neg (by omega) (by nlinarith), rnd_of_neg ht (by omega), e1, e2, ← neg_mul, ← add_mul,
      Int.mul_ediv_mul_of_pos_left _ _ h2]

/-- Where a rounded value lies, in halves of the discarded weight, with the side a tie goes to. -/
theorem rnd_bounds (p : Int) {t : Nat} (ht : 0 < t) :
    2 * rnd p t * 2 ^ t ≤ 2 * p + 2 ^ t ∧ 2 * p - 2 ^ t ≤ 2 * rnd p t * 2 ^ t ∧
      (0 ≤ p → 2 * p - 2 ^ t < 2 * rnd p t * 2 ^ t ∧ 0 ≤ rnd p t) ∧
      (p < 0 → 2 * rnd p t * 2 ^ t < 2 * p + 2 ^ t ∧ rnd p t ≤ 0) := by
  have e : (2 : Int) ^ t = 2 * 2 ^ (t - 1) := by rw [← pow_succ']; congr 1; omega
  have h2 : (0 : Int) < 2 ^ (t - 1) := by positivity
  have h3 : (0 : Int) < 2 ^ t := by positivity
  by_cases hp : 0 ≤ p
  · have heq := rnd_of_nonneg ht hp
    have a := Int.mul_ediv_self_le (x := p + 2 ^ (t - 1)) (k := 2 ^ t) (by omega)
    have b := Int.lt_mul_ediv_self_add (x := p + 2 ^ (t - 1)) (k := 2 ^ t) h3
    have c : 0 ≤ rnd p t := by rw [heq]; positivity
    rw [← heq] at a b
    exact ⟨by nlinarith, by nlinarith, fun _ => ⟨by nlinarith, c⟩, fun _ => by omega⟩
  · have heq := rnd_of_neg ht (by omega : p < 0)
    have a := Int.mul_ediv_self_le (x := -p + 2 ^ (t - 1)) (k := 2 ^ t) (by omega)
    have b := Int.lt_mul_ediv_self_add (x := -p + 2 ^ (t - 1)) (k := 2 ^ t) h3
    have d : (-p + 2 ^ (t - 1)) / 2 ^ t = -rnd p t := by omega
    have c : 0 ≤ -rnd p t := by rw [← d]; apply Int.ediv_nonneg <;> omega
    rw [d] at a b
    exact ⟨by nlinarith, by nlinarith, fun _ => by omega, fun _ => ⟨by nlinarith, by omega⟩⟩

/-- Saturation leaves a value in range (00_scope.md R9). -/
theorem sat_of_mem {n : Nat} {x : Int} (h1 : -2 ^ (n - 1) ≤ x) (h2 : x ≤ 2 ^ (n - 1) - 1) :
    sat n x = x := by
  unfold sat; rw [if_neg (by omega), if_neg (by omega)]

/-- A saturated value is in range. -/
theorem sat_mem {n : Nat} (x : Int) : -2 ^ (n - 1) ≤ sat n x ∧ sat n x ≤ 2 ^ (n - 1) - 1 := by
  have : (0 : Int) < 2 ^ (n - 1) := by positivity
  unfold sat; split_ifs <;> omega

theorem sat_mono {n : Nat} {x y : Int} (h : x ≤ y) : sat n x ≤ sat n y := by
  have : (0 : Int) < 2 ^ (n - 1) := by positivity
  unfold sat; split_ifs <;> omega

theorem rnd_mono {p q : Int} (t : Nat) (h : p ≤ q) : rnd p t ≤ rnd q t := by
  have h2 : (0 : Int) < 2 ^ (t - 1) := by positivity
  have h3 : (0 : Int) < 2 ^ t := by positivity
  unfold rnd
  split
  · exact h
  · split <;> split
    · exact Int.ediv_le_ediv h3 (by omega)
    · omega
    · have a : 0 ≤ (q + 2 ^ (t - 1)) / 2 ^ t := Int.ediv_nonneg (by omega) (by omega)
      have b : 0 ≤ (-p + 2 ^ (t - 1)) / 2 ^ t := Int.ediv_nonneg (by omega) (by omega)
      omega
    · have : (-q + 2 ^ (t - 1)) / 2 ^ t ≤ (-p + 2 ^ (t - 1)) / 2 ^ t := Int.ediv_le_ediv h3 (by omega)
      omega

end Sys2Proof.Machine
end

