-- ==== Sys2Proof/Laws/Params.lean ====
section
/-! SUPPORT. The parameter values of this hardware (00_scope.md R5): what the model's types and the rows
of the shift table owe to them. -/

namespace Sys2Proof.Laws

open Sys2Proof.Machine

/-- An address or ring register is `ADDR_W` bits wide. -/
theorem word_width : Word = BitVec hw.addrW := rfl

/-- A command or response word is `CMD_W` bits wide. -/
theorem packet_width : Packet = BitVec hw.cmdW := rfl

/-- The gain table has eight entries, as the literals of the statements have it. -/
theorem hw_maxCh : hw.maxCh = 8 := rfl

/-- `K` is 1: the scaled gain is the gain (41_gain_table.md R142). -/
theorem rescaleFactor_hw : rescaleFactor hw = 1 := rfl

/-- The sink width of a row is the sample width of the row's sink format (42_datapath.md R170). -/
@[simp] theorem shiftTable_sinkWidth (src snk : SampleFormat) :
    (shiftTable src snk).sinkWidth = sampleWidth snk := by cases src <;> cases snk <;> rfl

/-- With the table of 42_datapath.md R170, `pre = 32 - W` (R162). -/
theorem shiftTable_pre (src snk : SampleFormat) : (shiftTable src snk).pre = 32 - sampleWidth src := by
  cases src <;> cases snk <;> rfl

end Sys2Proof.Laws
end

