-- ==== Sys2Proof/Laws/PerInstr.lean ====
section
/-! SUPPORT. Statements about every instruction as syntax, one lemma per constructor. -/

namespace Sys2Proof.Laws

/-- The fields of a packed word are the fields it was packed from (30_encoding.md R90). -/
theorem packWord_fields (op a b : BitVec 8) (imm : Word) :
    Code.opOf (packWord op a b imm) = op ∧ Code.aOf (packWord op a b imm) = a ∧
      Code.bOf (packWord op a b imm) = b ∧ Code.rsvOf (packWord op a b imm) = 0 ∧
      Code.immOf (packWord op a b imm) = imm := by
  have h1 := op.isLt
  have h2 := a.isLt
  have h3 := b.isLt
  have h4 := imm.isLt
  refine ⟨?_, ?_, ?_, ?_, ?_⟩ <;> apply BitVec.eq_of_toNat_eq <;>
    simp only [Code.opOf, Code.aOf, Code.bOf, Code.rsvOf, Code.immOf, packWord, BitVec.extractLsb'_toNat,
      BitVec.toNat_append, Nat.shiftRight_eq_div_pow, Nat.shiftLeft_eq] <;>
    simp only [← Nat.shiftLeft_eq, ← Nat.shiftLeft_add_eq_or_of_lt h4,
      ← Nat.shiftLeft_add_eq_or_of_lt (show (0#8).toNat < 2 ^ 8 by decide),
      ← Nat.shiftLeft_add_eq_or_of_lt h3, ← Nat.shiftLeft_add_eq_or_of_lt h2] <;>
    simp [Nat.shiftLeft_eq] <;> omega

/-- A packed word is legal when its opcode is defined and the fields it does not use are 0
(30_encoding.md R98). -/
theorem wellFormed_packWord (op a b : BitVec 8) (imm : Word) (h1 : 1 ≤ op.toNat) (h2 : op.toNat ≤ 0x0B)
    (ha : Code.usesA op.toNat = true ∨ a = 0) (hb : Code.usesB op.toNat = true ∨ b = 0)
    (hi : Code.usesImm op.toNat = true ∨ imm = 0) : Code.wellFormed (.word (packWord op a b imm)) = true := by
  obtain ⟨e1, e2, e3, e4, e5⟩ := packWord_fields op a b imm
  simp only [Code.wellFormed, Code.opDefined, Code.rsvZero, Code.unusedZero, e1, e2, e3, e4, e5,
    Bool.and_eq_true, Bool.or_eq_true, decide_eq_true_eq, beq_iff_eq]
  exact ⟨⟨⟨h1, h2⟩, trivial⟩, ⟨ha, hb⟩, hi⟩

namespace CodeWellFormed

/-- The code of every instruction is legal (30_encoding.md R98, R99). -/
def Statement (i : Instr) : Prop := Code.wellFormed (encode i) = true

theorem strmcfg (channels : BitVec 8) : Statement (.strmcfg channels) :=
  wellFormed_packWord _ _ _ _ (by decide) (by decide) (.inl rfl) (.inr rfl) (.inr rfl)
theorem strmfree : Statement .strmfree :=
  wellFormed_packWord _ _ _ _ (by decide) (by decide) (.inr rfl) (.inr rfl) (.inr rfl)
theorem negotiate (src sink : BitVec 8) : Statement (.negotiate src sink) :=
  wellFormed_packWord _ _ _ _ (by decide) (by decide) (.inl rfl) (.inl rfl) (.inr rfl)
theorem process (frames : Word) : Statement (.process frames) :=
  wellFormed_packWord _ _ _ _ (by decide) (by decide) (.inr rfl) (.inr rfl) (.inl rfl)
theorem configure (ch : BitVec 8) (gain : Word) : Statement (.configure ch gain) :=
  wellFormed_packWord _ _ _ _ (by decide) (by decide) (.inl rfl) (.inr rfl) (.inl rfl)
theorem rbset (ring field : BitVec 8) (value : Word) : Statement (.rbset ring field value) :=
  wellFormed_packWord _ _ _ _ (by decide) (by decide) (.inl rfl) (.inl rfl) (.inl rfl)
theorem rbget (ring field : BitVec 8) : Statement (.rbget ring field) :=
  wellFormed_packWord _ _ _ _ (by decide) (by decide) (.inl rfl) (.inl rfl) (.inr rfl)
theorem rbadvr (ring : BitVec 8) (n : Word) : Statement (.rbadvr ring n) :=
  wellFormed_packWord _ _ _ _ (by decide) (by decide) (.inl rfl) (.inr rfl) (.inl rfl)
theorem rbadvw (ring : BitVec 8) (n : Word) : Statement (.rbadvw ring n) :=
  wellFormed_packWord _ _ _ _ (by decide) (by decide) (.inl rfl) (.inr rfl) (.inl rfl)
theorem getst : Statement .getst :=
  wellFormed_packWord _ _ _ _ (by decide) (by decide) (.inr rfl) (.inr rfl) (.inr rfl)
theorem getgain (ch sel : BitVec 8) : Statement (.getgain ch sel) :=
  wellFormed_packWord _ _ _ _ (by decide) (by decide) (.inl rfl) (.inl rfl) (.inr rfl)
theorem convS16S16 : Statement .convS16S16 := rfl
theorem convS16S24 : Statement .convS16S24 := rfl
theorem convS16S32 : Statement .convS16S32 := rfl
theorem convS24S16 : Statement .convS24S16 := rfl
theorem convS24S24 : Statement .convS24S24 := rfl
theorem convS24S32 : Statement .convS24S32 := rfl
theorem convS32S16 : Statement .convS32S16 := rfl
theorem convS32S24 : Statement .convS32S24 := rfl
theorem convS32S32 : Statement .convS32S32 := rfl

end CodeWellFormed

end Sys2Proof.Laws
end

