-- ==== Sys2Proof/Laws/Step.lean ====
section
/-! SUPPORT. What one step of the machine can do, said once: one alternative per kind of turn. -/

namespace Sys2Proof.Machine

open Sys2Proof.Safety

/-- When the machine itself moves, the step is its turn. -/
theorem step_of_machineMoves {s : State} {ts : List Turn} (h : machineMoves s ts) :
    step s = State.machineTurn { s with turns := ts } := by
  rcases h with h | ⟨h, rfl⟩
  · simp only [step, State.nextTurn, h, State.takeTurn]
  · simp only [step, State.nextTurn, h]
    rw [← h]

/-- When a turn of another kind is listed first, the step is that turn. -/
theorem step_of_turn {s : State} {t : Turn} {ts : List Turn} (h : s.turns = t :: ts) :
    step s = State.takeTurn t { s with turns := ts } := by
  simp only [step, State.nextTurn, h]

/-- Every step of every agent that answers a next state. In each alternative the moving agent's turn
is taken off `turns`. -/
inductive StepEffect (s : State) : State → Prop where
  /-- The completion of a period (44_dispatch_facade.md R216). -/
  | complete (ts : List Turn) (hm : machineMoves s ts) (hb : s.busy = true)
      (hf : s.frameIdx = s.frames ∨ s.channels = 0) :
      StepEffect s { s with turns := ts }.completePeriod
  /-- A sample step (44_dispatch_facade.md R215). -/
  | sample (ts : List Turn) (src snk : SampleFormat) (ch : Fin hw.maxCh) (hm : machineMoves s ts)
      (hb : s.busy = true) (hf : s.frameIdx.toNat < s.frames.toNat) (hc : s.channels ≠ 0)
      (hr : decode (.key s.routine) = some (src.routine snk)) (hch : channelIndex s.chIdx = some ch) :
      StepEffect s (State.sampleStep hw src snk ch { s with turns := ts }).nextSample
  /-- Nothing to do (70_reset_and_hazards.md R282). -/
  | quiet (ts : List Turn) (hm : machineMoves s ts) (hb : s.busy = false) (hh : s.cmdHeld = []) :
      StepEffect s { s with turns := ts }
  /-- The acceptance of a held CMD word (30_encoding.md R100). -/
  | accept (ts : List Turn) (w : Packet) (rest : List Packet) (t : State) (hm : machineMoves s ts)
      (hb : s.busy = false) (hh : s.cmdHeld = w :: rest)
      (ha : State.accept .cmd w { s with turns := ts, cmdHeld := rest } = .next t) : StepEffect s t
  /-- A word is presented on CMD. -/
  | present (ts : List Turn) (w : Packet) (ht : s.turns = .cmd w :: ts) :
      StepEffect s { s with turns := ts, cmdHeld := s.cmdHeld ++ [w] }
  /-- The acceptance of a CFG word (30_encoding.md R100). -/
  | configure (ts : List Turn) (w : Packet) (t : State) (ht : s.turns = .cfg w :: ts)
      (ha : State.accept .cfg w { s with turns := ts } = .next t) : StepEffect s t
  /-- A peer writes a byte outside the windows. -/
  | peerWrite (ts : List Turn) (a : Word) (b : Byte) (ht : s.turns = .peerWrite a b :: ts)
      (h0 : s.inSourceWindow a = false) (h1 : s.inSinkWindow a = false) :
      StepEffect s { s with turns := ts, mem := s.mem.store a b }
  /-- A peer reads a byte outside the sink window. -/
  | peerRead (ts : List Turn) (a : Word) (ht : s.turns = .peerRead a :: ts)
      (h1 : s.inSinkWindow a = false) : StepEffect s { s with turns := ts }
  /-- The reset input (70_reset_and_hazards.md R270). -/
  | reset (ts : List Turn) (ht : s.turns = .reset :: ts) : StepEffect s { s with turns := ts }.resetInput

/-- What the machine's own turn can do. -/
theorem State.machineTurn_effect {s t : State} {ts : List Turn} (hm : machineMoves s ts)
    (h : State.machineTurn { s with turns := ts } = .next t) : StepEffect s t := by
  simp only [State.machineTurn, State.engineStep] at h
  split at h
  · rename_i hb
    split at h
    · rename_i hf
      cases h
      exact .complete ts hm hb hf
    · rename_i hf
      simp only [not_or] at hf
      split at h
      · cases h
      · rename_i hlt
        split at h
        · cases h
        · rename_i i hr
          obtain ⟨src, snk, rfl⟩ := decode_key_routine hr
          rw [exec_routine, State.routineStep_next_iff] at h
          obtain ⟨ch, hch, rfl⟩ := h
          have hne : s.frameIdx.toNat ≠ s.frames.toNat := fun e => hf.1 (BitVec.eq_of_toNat_eq e)
          exact .sample ts src snk ch hm hb (by simp [BitVec.lt_def] at hlt; omega) hf.2 hr hch
  · rename_i hb
    split at h
    · cases h; exact .quiet ts hm (by simpa using hb) ‹_›
    · exact .accept ts _ _ t hm (by simpa using hb) ‹_› h

/-- Every step that answers a next state is one of the listed ones. -/
theorem step_effect {s t : State} (h : step s = .next t) : StepEffect s t := by
  match hts : s.turns with
  | [] =>
    have hm : machineMoves s [] := .inr ⟨hts, rfl⟩
    exact State.machineTurn_effect hm (step_of_machineMoves hm ▸ h)
  | .machine :: ts =>
    have hm : machineMoves s ts := .inl hts
    exact State.machineTurn_effect hm (step_of_machineMoves hm ▸ h)
  | .cmd w :: ts => rw [step_of_turn hts] at h; cases h; exact .present ts w hts
  | .cfg w :: ts => rw [step_of_turn hts] at h; exact .configure ts w t hts h
  | .peerWrite a b :: ts =>
    rw [step_of_turn hts] at h
    simp only [State.takeTurn, State.peerWrite] at h
    split at h
    · cases h
    · rename_i hw
      cases h
      simp only [Bool.or_eq_true, not_or, Bool.not_eq_true] at hw
      exact .peerWrite ts a b hts hw.1 hw.2
  | .peerRead a :: ts =>
    rw [step_of_turn hts] at h
    simp only [State.takeTurn, State.peerRead] at h
    split at h
    · cases h
    · rename_i hw
      cases h
      exact .peerRead ts a hts ((Bool.not_eq_true _).mp hw)
  | .reset :: ts => rw [step_of_turn hts] at h; cases h; exact .reset ts hts

/-! ### Runs -/

/-- A run in two parts. -/
theorem runs_add {j k : Nat} {s t u : State} (h : runs j s t) (h' : runs k t u) : runs (j + k) s u := by
  induction j generalizing s with
  | zero => cases h; simpa using h'
  | succ j ih =>
    obtain ⟨v, hv, hr⟩ := h
    rw [Nat.succ_add]
    exact ⟨v, hv, ih hr⟩

theorem runs_one {s t : State} (h : step s = .next t) : runs 1 s t := ⟨t, h, rfl⟩

/-- The runs are those of the host's machine. -/
theorem runs_iff_run (k : Nat) (s t : State) : runs k s t ↔ Host.Core.run Sys2Proof.core k s = .next t := by
  induction k generalizing s with
  | zero => exact ⟨fun h => congrArg _ h, fun h => by cases h; rfl⟩
  | succ k ih =>
    show (∃ u, step s = .next u ∧ runs k u t) ↔ _
    have hs : Sys2Proof.core.step s = step s := rfl
    cases h : step s with
    | next u =>
      rw [h] at hs
      simp only [Host.Core.run, hs, Host.Outcome.next.injEq, ← ih]
      exact ⟨fun ⟨_, e, hr⟩ => e ▸ hr, fun hr => ⟨u, rfl, hr⟩⟩
    | fault f => rw [h] at hs; simp [Host.Core.run, hs]
    | refused r => rw [h] at hs; simp [Host.Core.run, hs]

end Sys2Proof.Machine
end

