-- ==== Sys2Proof/Machine/Assembler.lean ====
section
/-! DEFINITION. The textual form of a command (30_encoding.md R101), read to the word it spells and the
port it is presented on. It serves test programs only; nothing of the machine depends on it. -/

namespace Sys2Proof.Machine

/-- The value of a digit in a base; capital and small letters alike. -/
def digitValue (base : Nat) (c : Char) : Option Nat :=
  let n := c.toNat
  let v :=
    if 48 ≤ n ∧ n ≤ 57 then n - 48
    else if 97 ≤ n ∧ n ≤ 102 then n - 87
    else if 65 ≤ n ∧ n ≤ 70 then n - 55
    else base
  if v < base then some v else none

/-- Digits read on from `acc`. -/
def digitsFrom (base : Nat) : Nat → List Char → Option Nat
  | acc, [] => some acc
  | acc, c :: cs => (digitValue base c).bind fun d => digitsFrom base (acc * base + d) cs

/-- "numbers in decimal or with `0x`" (30_encoding.md R101). -/
def readNumber (cs : List Char) : Option Nat :=
  match cs with
  | [] => none
  | ['0', 'x'] => none
  | '0' :: 'x' :: hex => digitsFrom 16 0 hex
  | dec => digitsFrom 10 0 dec

/-- What an operand of a command is written as (30_encoding.md R101). -/
inductive OperandKind where
  | number | format | ring | field | gain
  deriving DecidableEq, Repr

/-- The names an operand may be written with, and their codes (30_encoding.md R93 to R95, R101). -/
def operandName (k : OperandKind) (s : String) : Option Nat :=
  match k with
  | .number => none
  | .format => match s with | "S16" => some 0 | "S24" => some 1 | "S32" => some 2 | _ => none
  | .ring => match s with | "SRC" => some 0 | "SNK" => some 1 | _ => none
  | .field =>
    match s with | "ADDR" => some 0 | "END" => some 1 | "RPTR" => some 2 | "WPTR" => some 3 | _ => none
  | .gain => match s with | "GAIN" => some 0 | "SCALED" => some 1 | "ACT" => some 2 | _ => none

/-- One operand: a name of its kind, or a number, that fits its field. -/
def readOperand (k : OperandKind) (width : Nat) (cs : List Char) : Option (BitVec width) :=
  match (operandName k (String.ofList cs)).orElse fun _ => readNumber cs with
  | none => none
  | some v => if v < 2 ^ width then some (BitVec.ofNat width v) else none

/-- The command a mnemonic and its operands spell, the operands "in the order `A`, `B`, `IMM`, leaving
out the operands the command does not use" (30_encoding.md R101). -/
def readCommand (mnemonic : String) (ops : List (List Char)) : Option Instr :=
  match mnemonic, ops with
  | "STRMCFG", [a] => (readOperand .number 8 a).map .strmcfg
  | "STRMFREE", [] => some .strmfree
  | "NEGOTIATE", [a, b] =>
    (readOperand .format 8 a).bind fun a => (readOperand .format 8 b).map fun b => .negotiate a b
  | "PROCESS", [n] => (readOperand .number 32 n).map .process
  | "CONFIGURE", [a, v] =>
    (readOperand .number 8 a).bind fun a => (readOperand .number 32 v).map fun v => .configure a v
  | "RBSET", [a, b, v] =>
    (readOperand .ring 8 a).bind fun a => (readOperand .field 8 b).bind fun b =>
      (readOperand .number 32 v).map fun v => .rbset a b v
  | "RBGET", [a, b] =>
    (readOperand .ring 8 a).bind fun a => (readOperand .field 8 b).map fun b => .rbget a b
  | "RBADVR", [a, n] =>
    (readOperand .ring 8 a).bind fun a => (readOperand .number 32 n).map fun n => .rbadvr a n
  | "RBADVW", [a, n] =>
    (readOperand .ring 8 a).bind fun a => (readOperand .number 32 n).map fun n => .rbadvw a n
  | "GETST", [] => some .getst
  | "GETGAIN", [a, b] =>
    (readOperand .number 8 a).bind fun a => (readOperand .gain 8 b).map fun b => .getgain a b
  | _, _ => none

/-- The characters with the spaces before and after them dropped. -/
def trimSpaces (cs : List Char) : List Char :=
  ((cs.dropWhile (· = ' ')).reverse.dropWhile (· = ' ')).reverse

/-- The parts between commas; of a blank text there is none. -/
def splitOperands (cs : List Char) : List (List Char) :=
  if trimSpaces cs = [] then []
  else
    (cs.foldr
      (fun c (acc : List Char × List (List Char)) =>
        if c = ',' then ([], trimSpaces acc.1 :: acc.2) else (c :: acc.1, acc.2))
      ([], [])) |> fun acc => trimSpaces acc.1 :: acc.2

/-- The port a line is presented on, and the rest of the line (30_encoding.md R101). -/
def readPort (cs : List Char) : Port × List Char :=
  match cs with
  | 'C' :: 'F' :: 'G' :: ':' :: rest => (.cfg, trimSpaces rest)
  | _ => (.cmd, cs)

/-- One line of text: the port and the command. -/
def readLine (line : String) : Option (Port × Instr) :=
  let (port, cs) := readPort (trimSpaces line.toList)
  let mnemonic := cs.takeWhile (· ≠ ' ')
  let ops := splitOperands (cs.dropWhile (· ≠ ' '))
  (readCommand (String.ofList mnemonic) ops).map fun i => (port, i)

/-- One line of text: the port and the command word. -/
def assemble (line : String) : Option (Port × Packet) :=
  (readLine line).bind fun (port, i) =>
    match encode i with
    | .word w => some (port, w)
    | .key _ => none

end Sys2Proof.Machine
end

