-- ==== Sys2Proof/Tests/Slice0.lean ====
section
/-! SUPPORT. The model's own tests: well-formedness, decoding, one step or one operation each; and for
every statement with hypotheses a state and operands that meet them. Expected values are those of
spec/95_test_vectors.md (the section stands in each comment) or of the rule named. -/

namespace Sys2Proof.Tests

open Sys2Proof.Machine Sys2Proof.Safety

/-! ### Well-formedness: an ill-formed term for each check -/

/-- `OP` = 0x0C and `OP` = 0x00 are no opcodes (R98). -/
theorem test_wf_op_refused :
    Code.opDefined 0x0C00000000000000#64 = false ∧ Code.opDefined 0#64 = false := by decide
/-- `RSV` set (program 4, command 27). -/
theorem test_wf_rsv_refused :
    Code.rsvZero 0x0400000100000001#64 = false ∧
      Code.wellFormed (.word 0x0400000100000001#64) = false := by decide
/-- CONFIGURE 0, 1 with `B` = 1, and GETGAIN 0, GAIN with `IMM` = 1 (section 2.5). -/
theorem test_wf_unused_refused :
    Code.unusedZero 0x0500010000000001#64 = false ∧ Code.unusedZero 0x0B00000000000001#64 = false ∧
      Code.unusedZero 0x0A01000000000000#64 = false := by decide
/-- Keys 9 to 15 name no routine (R99). -/
theorem test_wf_key_refused :
    Code.wellFormed (.key 9#4) = false ∧ Code.wellFormed (.key 15#4) = false ∧
      Code.wellFormed (.key 8#4) = true := by decide
/-- GETST may not stand on CFG, CONFIGURE may; a routine on neither (R99, R100). -/
theorem test_wf_port_refused :
    Instr.allowedOn .cfg .getst = false ∧ Instr.allowedOn .cfg (.configure 0 0) = true ∧
      Instr.allowedOn .cmd .convS16S16 = false := by decide

/-! ### Decoding and encoding: a word written out for every constructor -/

theorem test_word_strmcfg : decode (.word 0x0102000000000000#64) = some (.strmcfg 2) ∧
    encode (.strmcfg 2) = .word 0x0102000000000000#64 := by decide
theorem test_word_strmfree : decode (.word 0x0200000000000000#64) = some .strmfree ∧
    encode .strmfree = .word 0x0200000000000000#64 := by decide
theorem test_word_negotiate : decode (.word 0x0302010000000000#64) = some (.negotiate 2 1) ∧
    encode (.negotiate 2 1) = .word 0x0302010000000000#64 := by decide
theorem test_word_process : decode (.word 0x0400000080000004#64) = some (.process 0x80000004#32) ∧
    encode (.process 0x80000004#32) = .word 0x0400000080000004#64 := by decide
theorem test_word_configure : decode (.word 0x050700007FFFFFFF#64) = some (.configure 7 0x7FFFFFFF#32) ∧
    encode (.configure 7 0x7FFFFFFF#32) = .word 0x050700007FFFFFFF#64 := by decide
theorem test_word_rbset : decode (.word 0x0600010000001010#64) = some (.rbset 0 1 0x1010#32) ∧
    encode (.rbset 0 1 0x1010#32) = .word 0x0600010000001010#64 := by decide
theorem test_word_rbget : decode (.word 0x0701030000000000#64) = some (.rbget 1 3) ∧
    encode (.rbget 1 3) = .word 0x0701030000000000#64 := by decide
theorem test_word_rbadvr : decode (.word 0x08010000FFFFFFFF#64) = some (.rbadvr 1 0xFFFFFFFF#32) ∧
    encode (.rbadvr 1 0xFFFFFFFF#32) = .word 0x08010000FFFFFFFF#64 := by decide
theorem test_word_rbadvw : decode (.word 0x0900000000000002#64) = some (.rbadvw 0 2) ∧
    encode (.rbadvw 0 2) = .word 0x0900000000000002#64 := by decide
theorem test_word_getst : decode (.word 0x0A00000000000000#64) = some .getst ∧
    encode .getst = .word 0x0A00000000000000#64 := by decide
theorem test_word_getgain : decode (.word 0x0B00020000000000#64) = some (.getgain 0 2) ∧
    encode (.getgain 0 2) = .word 0x0B00020000000000#64 := by decide
theorem test_key_convS16S16 : decode (.key 0b0000#4) = some .convS16S16 := rfl
theorem test_key_convS16S24 : decode (.key 0b0001#4) = some .convS16S24 := rfl
theorem test_key_convS16S32 : decode (.key 0b0010#4) = some .convS16S32 := rfl
theorem test_key_convS24S16 : decode (.key 0b0011#4) = some .convS24S16 := rfl
theorem test_key_convS24S24 : decode (.key 0b0100#4) = some .convS24S24 := rfl
theorem test_key_convS24S32 : decode (.key 0b0101#4) = some .convS24S32 := rfl
theorem test_key_convS32S16 : decode (.key 0b0110#4) = some .convS32S16 := rfl
theorem test_key_convS32S24 : decode (.key 0b0111#4) = some .convS32S24 := rfl
theorem test_key_convS32S32 : decode (.key 0b1000#4) = some .convS32S32 := rfl
/-- The first words of sections 2.5 and 2.8 that spell nothing. -/
theorem test_illegal_words : decode (.word 0#64) = none ∧ decode (.word 0x0C00000000000000#64) = none ∧
    decode (.word 0x0400000100000001#64) = none ∧ decode (.word 0x0500010000000001#64) = none ∧
    decode (.key 9#4) = none := by decide
theorem test_table_word : decodeTableWord 64 0x0302010000000000 = some (.negotiate 2 1) ∧
    decodeTableWord 8 7 = some .convS32S24 ∧ decodeTableWord 8 9 = none := by decide

/-! ### The textual form (R101): lines of sections 2.5 and 3 -/

theorem test_text_cfg : assemble "CFG: CONFIGURE 0, 0" = some (.cfg, 0x0500000000000000#64) := by decide
theorem test_text_rbset :
    assemble "RBSET SRC, END, 0x1010" = some (.cmd, 0x0600010000001010#64) := by decide
theorem test_text_negotiate :
    assemble "NEGOTIATE S32, 20" = some (.cmd, 0x0302140000000000#64) := by decide
theorem test_text_refused : assemble "GETST 1" = none ∧ assemble "NOP" = none := by decide

/-! ### States -/

/-- Program 2's stream with two channels, the second input of that program beside the first: S32 to
S24, gains `0x3FFFFFFF` and `0x40000000`. -/
def ready : State :=
  { State.reset with
    gain := #v[0x3FFFFFFF, 0x40000000, 0, 0, 0, 0, 0, 0]
    scaled := #v[0x3FFFFFFF, 0x40000000, 0, 0, 0, 0, 0, 0]
    channels := 2
    srcFmt := 2
    sinkFmt := 1
    resolved := true
    routine := 7
    ringSrc := ⟨0x3000, 0x3008, 0x3000, 0x3000⟩
    ringSnk := ⟨0x4000, 0x4008, 0x4000, 0x4000⟩
    mem := [(0x3000, 0x40), (0x3001, 0x42), (0x3002, 0x0F), (0x3003, 0x00),
            (0x3004, 0xC0), (0x3005, 0xBD), (0x3006, 0xF0), (0x3007, 0xFF)] }

/-- `ready` with a period of one frame accepted. -/
def running : State := { ready with act := ready.scaled, frames := 1, busy := true }

/-- `running` with the period's samples done. -/
def finished : State := { running with frameIdx := 1 }

/-- A word presented on CMD. -/
def held (w : Packet) (s : State) : State := { s with cmdHeld := [w] }

/-- A turn listed first. -/
def next (t : Turn) (s : State) : State := { s with turns := [t] }

/-- `f` of the state an outcome goes on to. -/
def after {α : Type} (r : Result) (f : State → α) : Option α :=
  match r with
  | .next t => some (f t)
  | .fault _ => none
  | .refused _ => none

theorem ready_invariant : Invariant ready := by constructor <;> decide
theorem running_invariant : Invariant running := by constructor <;> decide
theorem finished_invariant : Invariant finished := by constructor <;> decide

/-! ### Operations -/

/-- Section 2.1: the ring `0x1000 .. 0x1010`. -/
theorem test_advance : let r : Ring := ⟨0x1000, 0x1010, 0x1000, 0x1000⟩
    r.advance 0x100F 1 = 0x1000 ∧ r.advance 0x100F 16 = 0x100F ∧ r.advance 0x100F 0xFFFFFFFF = 0x100E ∧
      r.advance 0x100D 4 = 0x1001 := by decide
/-- Section 2.1: the largest region. -/
theorem test_advance_largest : let r : Ring := ⟨0, 0xFFFFFFFF, 0, 0⟩
    r.advance 0xFFFFFFFE 1 = 0 ∧ r.advance 0xFFFFFFFE 0xFFFFFFFF = 0xFFFFFFFE := by decide
/-- Section 2.1: `RbWrite(4, 0x11223344)` one byte before the end. -/
theorem test_rbWrite_wraps :
    let s := State.rbWrite (leBytes 4 0x11223344)
      { State.reset with ringSnk := ⟨0x1000, 0x1010, 0x1000, 0x100F⟩ }
    s.mem = [(0x1000, 0x33), (0x1001, 0x22), (0x1002, 0x11), (0x100F, 0x44)] ∧ s.ringSnk.wptr = 0x1003 := by
  decide
/-- Section 2.1: `RbRead(4)` one byte before the end. -/
theorem test_rbRead_wraps :
    let s := State.rbRead 4
      { State.reset with
        ringSrc := ⟨0x1000, 0x1010, 0x100F, 0x1000⟩
        mem := [(0x1000, 0x33), (0x1001, 0x22), (0x1002, 0x11), (0x100F, 0x44)] }
    leValue s.1 = 0x11223344 ∧ s.2.ringSrc.rptr = 0x1003 := by decide
/-- Section 2.8: valid and invalid rings. -/
theorem test_ring_valid : Ring.valid ⟨0, 0, 0, 0⟩ = false ∧ Ring.valid ⟨0x1000, 0x1010, 0x1000, 0x100F⟩ = true ∧
    Ring.valid ⟨0x1000, 0x1010, 0x1010, 0x1000⟩ = false ∧ Ring.valid ⟨0x1000, 0x1010, 0x0FFF, 0x1000⟩ = false ∧
    Ring.valid ⟨0x1000, 0x1001, 0x1000, 0x1000⟩ = true ∧ Ring.valid ⟨0, 0xFFFFFFFF, 0xFFFFFFFE, 0⟩ = true := by
  decide
/-- Sections 2.5 and 2.3: the clamp and the rescale. -/
theorem test_clamp_rescale : clampGain hw 0x80000000 = 0x7FFFFFFF ∧ rescaleFactor hw = 1 ∧
    clampGain secondInstance 70000 = 65536 ∧ rescaleGain secondInstance 65536 = 2147418112 := by decide
theorem test_params : paramsOk hw = true ∧ paramsOk secondInstance = true ∧ paramsOk printedTable = true := by
  decide
/-- Section 2.4: the printed table. -/
theorem test_printed_table : conv printedTable .s16 .s16 0x7FFF 0x7FFFFFFF = 0 ∧
    conv printedTable .s24 .s16 0x007FFFFF 0x7FFFFFFF = 128 := by decide

/-! ### The nine conversions (sections 2.2, 2.6 and 2.7) -/

theorem test_conv_s16_s16 : conv hw .s16 .s16 0xFFFE 0x20000000 = -1 ∧
    conv hw .s16 .s16 0x8000 0x5A827999 = -23170 := by decide
theorem test_conv_s16_s24 : conv hw .s16 .s24 0x0001 0x40000000 = 256 ∧
    containerOf .s24 (conv hw .s16 .s24 0x8000 0x7FFFFFFF) = 0xFF800000 := by decide
theorem test_conv_s16_s32 : conv hw .s16 .s32 0xFFFF 0x40000000 = -65536 ∧
    conv hw .s16 .s32 0x1234 0x5A827999 = 215941120 := by decide
theorem test_conv_s24_s16 : conv hw .s24 .s16 0x007FFF81 0x7FFFFFFF = 32767 ∧
    conv hw .s24 .s16 0x00000080 0x7FFFFFFF = 0 := by decide
theorem test_conv_s24_s24 : conv hw .s24 .s24 0xFF000001 0x40000000 = 1 ∧
    conv hw .s24 .s24 0x00ABCDEF 0x40000000 = -2758921 := by decide
theorem test_conv_s24_s32 : conv hw .s24 .s32 0x55800000 0x7FFFFFFF = -2147483648 ∧
    conv hw .s24 .s32 0x12345678 0x40000000 = 439041024 := by decide
theorem test_conv_s32_s16 : conv hw .s32 .s16 0x7FFF8000 0x7FFFFFFF = 32767 ∧
    conv hw .s32 .s16 0xEDCBA988 0x5A827999 = -3295 := by decide
theorem test_conv_s32_s24 : conv hw .s32 .s24 0x000000FF 0x40000000 = 1 ∧
    conv hw .s32 .s24 0xEDCBA988 0x40000000 = -596523 := by decide
theorem test_conv_s32_s32 : conv hw .s32 .s32 0x80000000 0x7FFFFFFF = -2147483647 ∧
    conv hw .s32 .s32 0x40000000 0x00000001 = 1 := by decide

/-! ### Commands, one each -/

/-- Section 2.9. -/
theorem test_strmcfg : after (exec (.strmcfg 8) ready) (fun t => (statusWord t, t.cmdOut)) =
    some (0x00080120, [0]) ∧ after (exec (.strmcfg 9) ready) (·.cmdOut) = some [0x0000000400000000] := by decide
theorem test_strmfree :
    after (exec .strmfree ready) (fun t => (statusWord t, t.cmdOut)) = some (0x00000120, [0]) := by decide
/-- Section 2.9: NEGOTIATE S24, S32, and NEGOTIATE S32, 20 which leaves the resolution. -/
theorem test_negotiate :
    after (exec (.negotiate 1 2) ready) (fun t => (statusWord t, t.routine)) = some (0x00020211, 5) ∧
      after (exec (.negotiate 2 20) ready) (fun t => (statusWord t, t.cmdOut)) =
        some (0x00020121, [0x0000000100000000]) := by decide
/-- Section 2.5: the latch at acceptance; program 4: unresolved before invalid rings. -/
theorem test_process :
    after (exec (.process 4) ready) (fun t => (t.act, t.frames, t.busy, t.cmdOut)) =
      some (ready.scaled, 4, true, []) ∧
    after (exec (.process 1) State.reset) (·.cmdOut) = some [0x0000000200000000] ∧
    after (exec (.process 1) { State.reset with resolved := true }) (·.cmdOut) = some [0x0000000500000000] := by
  decide
/-- Section 2.5: the clamp, on CFG too; channel 8. -/
theorem test_configure :
    after (exec (.configure 3 0x80000000) { ready with port := .cfg })
      (fun t => (t.gain[3], t.scaled[3], t.act[3], t.cmdOut, t.cfgOut)) =
        some (0x7FFFFFFF, 0x7FFFFFFF, 0, [], [0]) ∧
    after (exec (.configure 8 1) ready) (·.cmdOut) = some [0x0000000400000000] := by decide
/-- R120's example. -/
theorem test_rbset : after (exec (.rbset 0 1 0x1010) ready) (fun t => (t.ringSrc.endAddr, t.ringSnk)) =
    some (0x1010, ready.ringSnk) := by decide
theorem test_rbget : after (exec (.rbget 1 1) ready) (·.cmdOut) = some [0x0000000000004008] := by decide
/-- R122's example. -/
theorem test_rbadvr :
    after (exec (.rbadvr 0 1) { ready with ringSrc := ⟨0x1000, 0x1010, 0x100F, 0x1005⟩ }) (·.ringSrc) =
      some ⟨0x1000, 0x1010, 0x1000, 0x1005⟩ := by decide
/-- R123's example. -/
theorem test_rbadvw :
    after (exec (.rbadvw 0 2) { ready with ringSrc := ⟨0x1000, 0x1010, 0x1005, 0x100F⟩ }) (·.ringSrc) =
      some ⟨0x1000, 0x1010, 0x1005, 0x1001⟩ := by decide
/-- R217's example. -/
theorem test_getst :
    after (exec .getst { State.reset with channels := 1, srcFmt := 2, resolved := true }) (·.cmdOut) =
      some [0x0000000000010021] := by decide
/-- Section 2.5: each register file. -/
theorem test_getgain : after (exec (.getgain 1 1) ready) (·.cmdOut) = some [0x0000000040000000] ∧
    after (exec (.getgain 1 2) ready) (·.cmdOut) = some [0] := by decide

/-! ### Steps -/

/-- Program 2: the first sample of a running period, `1000000` at half gain. -/
theorem test_step_sample : after (step running) (fun t =>
    ((t.mem.byte 0x4000, t.mem.byte 0x4001, t.mem.byte 0x4002, t.mem.byte 0x4003),
      (t.ringSrc.rptr, t.ringSnk.wptr), (t.chIdx, t.frameIdx))) =
    some ((0xA1, 0x07, 0x00, 0x00), (0x3004, 0x4004), (1, 0)) := by decide
/-- Program 2: `-1000000` at half gain, by the second channel; the frame ends. -/
theorem test_step_last_sample : after (step { running with chIdx := 1, ringSrc := ⟨0x3000, 0x3008, 0x3004, 0x3000⟩ })
    (fun t => ((t.mem.byte 0x4000, t.mem.byte 0x4001, t.mem.byte 0x4002, t.mem.byte 0x4003),
      (t.ringSrc.rptr, t.chIdx, t.frameIdx))) = some ((0x5F, 0xF8, 0xFF, 0xFF), (0x3000, 0, 1)) := by decide
theorem test_step_complete :
    after (step finished) (fun t => (t.busy, t.cmdOut, t.ringSrc)) = some (false, [0], finished.ringSrc) := by decide
/-- A CMD word waits while BUSY; on CFG a CONFIGURE is taken and GETST is not (section 2.8). -/
theorem test_step_ports :
    after (step (next (.cmd 0x0A00000000000000) running)) (fun t => (t.cmdHeld, t.cmdOut)) =
      some ([0x0A00000000000000], []) ∧
    after (step (next (.cfg 0x0500000000000000) running)) (fun t => (t.scaled[0], t.act[0], t.cfgOut)) =
      some (0, 0x3FFFFFFF, [0]) ∧
    after (step (next (.cfg 0x0A00000000000000) running)) (·.cfgOut) = some [0x0000000300000000] := by decide
/-- The reset input during a period (R270). -/
theorem test_step_reset : after (step (next .reset (held 1 running))) (fun t =>
    (t.busy, t.cmdHeld, t.cmdOut, t.act[0])) = some (false, [], [], 0) ∧
    after (step (next .reset running)) (·.mem) = some running.mem := by decide
/-- Every row of the opcode table is placed so that the next step runs it. -/
theorem test_withFetchWord_command :
    step (State.reset.withFetchWord 64 0x0102000000000000) = exec (.strmcfg 2) State.reset := rfl
theorem test_withFetchWord_routine : ∀ k : Fin 9,
    (after (step (State.reset.withFetchWord 8 k)) fun t => (t.frameIdx, t.chIdx, t.busy)) = some (1, 0, true) := by
  decide

/-! ### Witnesses: a state and operands that meet the hypotheses of each statement that has some -/

theorem witness_IllegalWordsAnswered : decode (.word 0x0C00000000000000#64) = none := by decide
theorem witness_DispatchTableEntries : 9 ≤ (9#4).toNat ∧ 9 ≤ (15#4).toNat := by decide
theorem witness_StepRunsHeldCommand :
    machineMoves (held 0x0102000000000000 ready) [] ∧ (held 0x0102000000000000 ready).busy = false ∧
      (held 0x0102000000000000 ready).cmdHeld = [0x0102000000000000] ∧
      decode (.word 0x0102000000000000) = some (.strmcfg 2) :=
  ⟨.inr ⟨rfl, rfl⟩, rfl, rfl, by decide⟩
/-- The same of a held word that is illegal. -/
theorem witness_StepRunsHeldCommand_illegal :
    machineMoves (held 0 ready) [] ∧ (held 0 ready).busy = false ∧ (held 0 ready).cmdHeld = [0] ∧
      decode (.word 0#64) = none :=
  ⟨.inr ⟨rfl, rfl⟩, rfl, rfl, by decide⟩
theorem witness_StepRunsConfigurationWord :
    (next (.cfg 0x0500000000000000) running).turns = [.cfg 0x0500000000000000] ∧
      decode (.word 0x0500000000000000) = some (.configure 0 0) := by decide
theorem witness_StepRunsRoutine : machineMoves running [] ∧ running.busy = true ∧
    running.frameIdx.toNat < running.frames.toNat ∧ running.channels ≠ 0 ∧
    decode (.key running.routine) = some .convS32S24 :=
  ⟨.inr ⟨rfl, rfl⟩, by decide⟩
/-- Both ways a period is complete. -/
theorem witness_StepCompletesPeriod :
    (machineMoves finished [] ∧ finished.busy = true ∧ finished.frameIdx = finished.frames) ∧
    (machineMoves { running with channels := 0 } [] ∧ { running with channels := 0 }.busy = true ∧
      { running with channels := 0 }.channels = 0) :=
  ⟨⟨.inr ⟨rfl, rfl⟩, by decide⟩, ⟨.inr ⟨rfl, rfl⟩, by decide⟩⟩
/-- One step with the period going on, one that completes it. -/
theorem witness_CmdPortHoldsWhileBusy :
    (running.busy = true ∧ noReset running ∧ ∃ t, step running = .next t ∧ t.busy = true) ∧
    (finished.busy = true ∧ noReset finished ∧ ∃ t, step finished = .next t ∧ t.busy = false) :=
  ⟨⟨rfl, fun _ h => (by cases h), _, rfl, rfl⟩, ⟨rfl, fun _ h => (by cases h), _, rfl, rfl⟩⟩
/-- A legal word and an illegal one. -/
theorem witness_CfgPortTakesConfigureOnly :
    ((next (.cfg 0x0A00000000000000) ready).turns = [.cfg 0x0A00000000000000] ∧
      ∀ ch g, decode (.word 0x0A00000000000000#64) ≠ some (.configure ch g)) ∧
    ((next (.cfg 0) ready).turns = [.cfg 0] ∧ ∀ ch g, decode (.word 0#64) ≠ some (.configure ch g)) := by
  refine ⟨⟨rfl, fun ch g => ?_⟩, rfl, fun ch g => ?_⟩
  · rw [test_word_getst.1]; simp
  · rw [test_illegal_words.1]; simp
theorem witness_QuiescentForEver :
    State.reset.turns = [] ∧ State.reset.busy = false ∧ State.reset.cmdHeld = [] := by decide
theorem witness_FailedCommandChangesNothing : ∃ t, State.accept .cmd 0 ready = .next t ∧
    out .cmd t = out .cmd ready ++ [0x0000000300000000] ∧ codeOf 0x0000000300000000 ≠ 0 :=
  ⟨_, rfl, by decide, by decide⟩

theorem witness_StrmcfgResult : ready.port = .cmd ∧ (8#8).toNat ≤ 8 ∧ ¬(9#8).toNat ≤ 8 := by decide
theorem witness_StrmfreeResult : ready.port = .cmd := rfl
theorem witness_NegotiateResult : ready.port = .cmd ∧ ((2#8).toNat ≤ 2 ∧ (2#8).toNat ≤ 2) ∧
    2 < (3#8).toNat := by decide
theorem witness_RenegotiateIdempotent : Invariant ready ∧ ready.port = .cmd ∧ ready.resolved = true :=
  ⟨ready_invariant, rfl, rfl⟩
/-- Accepted; unresolved; resolved with one ring invalid. -/
theorem witness_ProcessAcceptance :
    (ready.port = .cmd ∧ ready.resolved = true ∧ ready.ringSrc.valid = true ∧ ready.ringSnk.valid = true) ∧
    (State.reset.port = .cmd ∧ State.reset.resolved = false) ∧
    ({ ready with ringSnk := Ring.reset }.port = .cmd ∧ { ready with ringSnk := Ring.reset }.resolved = true ∧
      { ready with ringSnk := Ring.reset }.ringSnk.valid = false) := by decide
theorem witness_ConfigureResult : (7#8).toNat < 8 ∧ 8 ≤ (8#8).toNat ∧
    (0x7FFFFFFF#32).toNat ≤ 2147483647 ∧ ¬(0x80000000#32).toNat ≤ 2147483647 := by decide
theorem witness_ScaledGainFits : paramsOk hw = true ∧ paramsOk secondInstance = true ∧
    (65536#32).toNat ≤ secondInstance.volMax := by decide
theorem witness_GetgainResult : ready.port = .cmd ∧ (7#8).toNat < 8 ∧ 8 ≤ (8#8).toNat ∧
    2 < (3#8).toNat := by decide
theorem witness_RbsetResult : ready.port = .cmd ∧ 1 < (2#8).toNat ∧ 3 < (4#8).toNat := by decide
theorem witness_RbgetResult : ready.port = .cmd ∧ 1 < (2#8).toNat ∧ 3 < (4#8).toNat ∧
    { ready with port := .cfg }.port = .cfg ∧
    (0x0701030000000000#64).extractLsb' 56 8 = 0x07#8 ∧ (0x0701030000000000#64).extractLsb' 32 8 = 0#8 ∧
    (0x0701030000000000#64).extractLsb' 0 32 = 0#32 ∧
    (0x0700010000000001#64).extractLsb' 56 8 = 0x07#8 ∧ (0x0700010000000001#64).extractLsb' 0 32 ≠ 0#32 ∧
    (0x0700010100000000#64).extractLsb' 56 8 = 0x07#8 ∧ (0x0700010100000000#64).extractLsb' 32 8 ≠ 0#8 ∧
    { ready with ringSrc := ⟨0, 0x1010, 0, 0⟩ }.port = .cmd ∧
    { ready with ringSrc := ⟨0, 0x1010, 0, 0⟩ }.ringSrc.endAddr = 0x1010#32 := by decide
theorem witness_RbadvResult : ready.port = .cmd ∧ ready.ringSrc.valid = true ∧ ready.ringSnk.valid = true ∧
    State.reset.port = .cmd ∧ State.reset.ringSrc.valid = false ∧ State.reset.ringSnk.valid = false ∧
    1 < (2#8).toNat := by decide
theorem witness_GetstResult : ready.port = .cmd := rfl
/-- A command that writes nothing, and a routine. -/
theorem witness_AccessTable : (∃ t, exec .getst ready = .next t) ∧
    (∃ t, exec .convS32S24 running = .next t) ∧ Instr.convS32S24 = SampleFormat.routine .s32 .s24 ∧
    running.ringSnk.valid = true ∧ ¬inRegion running.ringSnk 0x4008 :=
  ⟨⟨_, rfl⟩, ⟨_, rfl⟩, rfl, by decide, fun h => absurd h.2 (by decide)⟩

/-- The first and the last channel of the table. -/
theorem witness_RoutineStepResult :
    (running.chIdx.toNat < 8 ∧ running.ringSrc.valid = true ∧ running.ringSnk.valid = true) ∧
    ({ running with chIdx := 7 }.chIdx.toNat < 8 ∧ { running with chIdx := 7 }.ringSrc.valid = true) := by
  decide
theorem witness_ConversionClosedForms : 0 ≤ 2147483647 ∧ 2147483647 ≤ 2147483647 := by decide
theorem witness_ZeroGainGivesZero : sampleOf .s24 0xAB000000 = 0 := by decide
theorem witness_ConversionMonotone : sampleOf .s16 0xFFFF ≤ sampleOf .s16 0 ∧
    (1 ≤ 2 ∧ 0 ≤ sampleOf .s16 0) ∧ sampleOf .s16 0 ≤ 0 := by decide
theorem witness_SaturationOnlyOnePast : 2147483647 ≤ 2147483647 ∧
    sampleWidth .s16 ≤ sampleWidth .s16 := by decide
theorem witness_NoIntermediateOverflow : 2147483647 ≤ 2 ^ 31 - 1 := by decide
theorem witness_RoundsHalfAwayFromZero : 0 < 1 ∧ (0 : Int) ≤ 0 ∧ (-1 : Int) < 0 := by decide
theorem witness_DoubleRoundingS32S24 : 2147483647 ≤ 2147483647 := by decide
theorem witness_SampleExtraction : 0x00ABCDEF % 2 ^ 24 = 0xFFABCDEF % 2 ^ 24 := by decide
/-- The ends of a format's range, and a format whose container is 32 bits wide. -/
theorem witness_ContainerRoundTrip :
    ((-2 : Int) ^ (sampleWidth .s16 - 1) ≤ -32768 ∧ (-32768 : Int) ≤ 2 ^ (sampleWidth .s16 - 1) - 1) ∧
    ((8388607 : Int) ≤ 2 ^ (sampleWidth .s24 - 1) - 1 ∧ SampleFormat.s24 ≠ .s16) := by decide
theorem witness_ChannelsIndependent : running.chIdx.toNat < 8 ∧
    (#v[0x3FFFFFFF, 1, 2, 3, 4, 5, 6, 7] : Vector Word 8)[0] = running.act[0] ∧
    ∃ t, exec (SampleFormat.routine .s32 .s24) running = .next t :=
  ⟨by decide, by decide, _, rfl⟩

/-- The first and the last byte of a region, and a region of one byte. -/
theorem witness_CursorAdvance : ready.ringSrc.valid = true ∧ inRegion ready.ringSrc 0x3000 ∧
    inRegion ready.ringSrc 0x3007 ∧ (0x3007#32).toNat + 1 = ready.ringSrc.endAddr.toNat ∧
    Ring.valid ⟨0x1000, 0x1001, 0x1000, 0x1000⟩ = true ∧ inRegion ⟨0x1000, 0x1001, 0x1000, 0x1000⟩ 0x1000 :=
  ⟨by decide, ⟨by decide, by decide⟩, ⟨by decide, by decide⟩, by decide, by decide, ⟨by decide, by decide⟩⟩
/-- A write of a whole region that starts at its last byte. -/
theorem witness_WriteWraps : let s : State := { ready with ringSnk := ⟨0x4000, 0x4002, 0x4000, 0x4001⟩ }
    s.ringSnk.valid = true ∧ 1 ≤ [0xEF#8, 0xBE#8].length ∧
      [0xEF#8, 0xBE#8].length ≤ s.ringSnk.endAddr.toNat - s.ringSnk.addr.toNat ∧
      s.ringSnk.wptr.toNat + 1 = s.ringSnk.endAddr.toNat := by decide
/-- A sample step of the engine while an RBSET is held on CMD. -/
theorem witness_RingValidityKept : let s := held 0x0600010000001010 running
    (s.ring .source).valid = true ∧ noReset s ∧
    (∀ ts w rest a b v, machineMoves s ts → s.busy = false → s.cmdHeld = w :: rest →
      decode (.word w) ≠ some (.rbset a b v)) ∧
    decode (.word 0x0600010000001010#64) = some (.rbset 0 1 0x1010) ∧ ∃ t, step s = .next t :=
  ⟨by decide, fun _ h => (by cases h), fun _ _ _ _ _ _ _ h => (by cases h), by decide, _, rfl⟩
theorem witness_EngineWritesSinkRegionOnly : Invariant running ∧ noReset running ∧
    (∃ t, step running = .next t) ∧
    (∀ a b ts, running.turns ≠ .peerWrite a b :: ts) ∧ ¬inRegion running.ringSnk 0x4008 :=
  ⟨running_invariant, fun _ h => (by cases h), ⟨_, rfl⟩, fun _ _ _ h => (by cases h), fun h => absurd h.2 (by decide)⟩
theorem witness_EngineReadsSourceRegionOnly : running.ringSrc.valid = true ∧ running.ringSnk.valid = true ∧
    (∀ a, inRegion running.ringSrc a → (running.mem.store 0x2FFF 1).byte a = running.mem.byte a) ∧
    ∃ t, exec (SampleFormat.routine .s32 .s24) running = .next t := by
  refine ⟨by decide, by decide, fun a h => Memory.byte_store_ne _ _ ?_, _, rfl⟩
  rintro rfl
  exact absurd h.1 (by decide)
/-- No period in flight; outside the windows during one; inside each window, at its last byte. -/
theorem witness_PeerAccess :
    ((next (.peerWrite 0x3000 1) ready).turns = [.peerWrite 0x3000 1] ∧ (next (.peerWrite 0x3000 1) ready).busy = false) ∧
    ((next (.peerWrite 0x4008 1) running).inSourceWindow 0x4008 = false ∧
      (next (.peerWrite 0x4008 1) running).inSinkWindow 0x4008 = false) ∧
    ((next (.peerWrite 0x3007 1) running).inSourceWindow 0x3007 = true) ∧
    ((next (.peerWrite 0x4007 1) running).inSinkWindow 0x4007 = true) ∧
    ((next (.peerRead 0x3007) running).turns = [.peerRead 0x3007] ∧
      (next (.peerRead 0x3007) running).inSinkWindow 0x3007 = false) ∧
    ((next (.peerRead 0x4007) running).inSinkWindow 0x4007 = true) := by decide
theorem witness_InWindowLaw : ready.ringSrc.valid = true ∧ inRegion ready.ringSrc 0x3007 :=
  ⟨by decide, ⟨by decide, by decide⟩⟩
/-- An acceptance; a sample step that ends a frame with the period going on; no period. -/
theorem witness_WindowsOfPeriod :
    (ready.port = .cmd ∧ srcFormat ready = some .s32 ∧ sinkFormat ready = some .s24 ∧ ready.busy = false ∧
      ∃ t, exec (.process 1) ready = .next t ∧ t.busy = true) ∧
    (Invariant { running with chIdx := 1 } ∧ { running with chIdx := 1 }.busy = true ∧
      ∃ t, step { running with chIdx := 1 } = .next t ∧ t.busy = true ∧ t.frameIdx = 1) :=
  ⟨⟨rfl, by decide, by decide, rfl, _, rfl, rfl⟩, by constructor <;> decide, rfl, _, rfl, rfl,
    by decide⟩

theorem witness_ResetValues : (7#8).toNat < 8 ∧ (2#8).toNat ≤ 2 ∧ (1#8).toNat ≤ 1 ∧ (3#8).toNat ≤ 3 := by decide
theorem witness_ResetAtAnyTime : (next .reset running).turns = .reset :: [] := rfl
theorem witness_StepKeepsInvariant : Invariant running ∧ ∃ t, step running = .next t :=
  ⟨running_invariant, _, rfl⟩
/-- A step that goes on, and the one kind that is refused. -/
theorem witness_NoStepStops : Invariant running ∧ Invariant (next (.peerWrite 0x3007 1) running) ∧
    step (next (.peerWrite 0x3007 1) running) = .refused (.foreignWindowAccess 0x3007) :=
  ⟨running_invariant, by constructor <;> decide, rfl⟩
theorem witness_UnreachableStatesFault :
    8 ≤ { running with chIdx := 8 }.chIdx.toNat ∧
    (machineMoves { running with frameIdx := 2 } [] ∧ { running with frameIdx := 2 }.busy = true ∧
      { running with frameIdx := 2 }.channels ≠ 0 ∧
      { running with frameIdx := 2 }.frames.toNat < { running with frameIdx := 2 }.frameIdx.toNat) ∧
    (machineMoves { running with routine := 9 } [] ∧
      { running with routine := 9 }.frameIdx.toNat < { running with routine := 9 }.frames.toNat ∧
      9 ≤ { running with routine := 9 }.routine.toNat) :=
  ⟨by decide, ⟨.inr ⟨rfl, rfl⟩, by decide⟩, ⟨.inr ⟨rfl, rfl⟩, by decide⟩⟩
/-- A step that latches, and one that does not. -/
theorem witness_ActLatchedAtAcceptanceOnly :
    (noReset (held 0x0400000000000001 ready) ∧ ∃ t, step (held 0x0400000000000001 ready) = .next t ∧
      t.act = ready.scaled) ∧ (noReset running ∧ ∃ t, step running = .next t) :=
  ⟨⟨fun _ h => (by cases h), _, rfl, rfl⟩, ⟨fun _ h => (by cases h), _, rfl⟩⟩
/-- A CONFIGURE on CFG during a period; a period with nothing held; one with a word held, to its end. -/
theorem witness_GainUpdateDoesNotReachPeriod :
    (let s := next (.cfg 0x0500000000000000) running
     s.busy = true ∧ noReset s ∧ ∃ t, step s = .next t) ∧
    (running.busy = true ∧ running.turns = [] ∧ running.cmdHeld = [] ∧ ∃ t, runs 1 running t) ∧
    (let s := held 0x0A00000000000000 running
     s.busy = true ∧ s.turns = [] ∧ 3 ≤ s.samplesTotal - s.samplesDone + 1 ∧ ∃ t, runs 3 s t) :=
  ⟨⟨rfl, fun _ h => (by cases h), _, rfl⟩, ⟨rfl, rfl, rfl, _, _, rfl, rfl⟩,
    rfl, rfl, by decide, _, _, rfl, _, rfl, _, rfl, rfl⟩
theorem witness_PeriodCompletes : let s := held 0x0400000000000001 ready
    Invariant s ∧ s.turns = [] ∧ s.busy = false ∧ s.cmdHeld = [0x0400000000000001] ∧
      decode (.word 0x0400000000000001) = some (.process 1) ∧ s.resolved = true ∧ s.ringSrc.valid = true ∧
      s.ringSnk.valid = true ∧ srcFormat s = some .s32 ∧ sinkFormat s = some .s24 :=
  ⟨by constructor <;> decide, by decide⟩
theorem witness_PeriodOutput : let s := held 0x0400000000000001 ready
    Invariant s ∧ s.turns = [] ∧ s.busy = false ∧ s.cmdHeld = [0x0400000000000001] ∧
      decode (.word 0x0400000000000001) = some (.process 1) ∧ s.resolved = true ∧ s.ringSrc.valid = true ∧
      s.ringSnk.valid = true ∧ srcFormat s = some .s32 ∧ sinkFormat s = some .s24 ∧
      (∀ a, ¬(inRegion s.ringSrc a ∧ inRegion s.ringSnk a)) ∧
      (1#32).toNat * s.channels.toNat * containerBytes .s24 ≤ s.ringSnk.endAddr.toNat - s.ringSnk.addr.toNat := by
  refine ⟨by constructor <;> decide, by decide, by decide, by decide, by decide, by decide, by decide, by decide,
    by decide, by decide, ?_, by decide⟩
  rintro a ⟨⟨-, h1⟩, h2, -⟩
  have h1 : a.toNat < 0x3008 := h1
  have h2 : 0x4000 ≤ a.toNat := h2
  omega

end Sys2Proof.Tests
end

section
/-! PROOFS. The statements about the machine's scope: which turn a step takes, a peer's access to sample
memory, and the arithmetic of 00_scope.md R9. First the rules the proofs cite, then the statements. -/

namespace Sys2Proof.Machine

open Sys2Proof.Safety
open Sys2Proof.Config (Params)

/-! ### Responses and acceptance -/

/-- A response is an answer on the port the command came from. -/
theorem State.respond_eq_answered (s : State) (c : ResultCode) (d : Word) :
    s.respond c d = answered s.port (responseWord c d) s := by
  cases hp : s.port with
  | cmd => exact State.respond_of_cmd hp c d
  | cfg => exact State.respond_of_cfg hp c d

/-- The response word of `ERR_BAD_COMMAND` (30_encoding.md R96, R97). -/
theorem responseWord_badCommand : responseWord .badCommand 0 = 0x0000000300000000#64 := rfl

/-- A legal word is executed, on either port (30_encoding.md R100). -/
theorem State.accept_of_decode {w : Packet} {i : Instr} (h : decode (.word w) = some i) (p : Port)
    (s : State) : State.accept p w s = exec i { s with port := p } := by
  simp only [State.accept, h]

/-- An illegal word is answered `ERR_BAD_COMMAND` and nothing else, on either port (30_encoding.md R98). -/
theorem State.accept_of_illegal {w : Packet} (h : decode (.word w) = none) (p : Port) (s : State) :
    State.accept p w s = .next (answered p 0x0000000300000000#64 { s with port := p }) := by
  simp only [State.accept, h, State.raise, State.respond_eq_answered, responseWord_badCommand]

/-- The machine's turn when it is idle and holds words: the acceptance of the oldest one. -/
theorem State.machineTurn_of_held {s : State} {w : Packet} {rest : List Packet} (hb : s.busy = false)
    (hh : s.cmdHeld = w :: rest) :
    s.machineTurn = State.accept .cmd w { s with cmdHeld := rest } := by
  simp only [State.machineTurn, hb, hh, Bool.false_eq_true, if_false]

/-! ### A peer's turn -/

/-- No window without a period in flight (20_memory.md R73). -/
theorem State.inSourceWindow_of_idle {s : State} (h : s.busy = false) (a : Word) :
    s.inSourceWindow a = false := by simp [State.inSourceWindow, h]

theorem State.inSinkWindow_of_idle {s : State} (h : s.busy = false) (a : Word) :
    s.inSinkWindow a = false := by simp [State.inSinkWindow, h]

theorem State.peerWrite_of_outside {s : State} {a : Word} (b : Byte) (hsrc : s.inSourceWindow a = false)
    (hsnk : s.inSinkWindow a = false) :
    State.peerWrite a b s = .next { s with mem := s.mem.store a b } := by
  simp [State.peerWrite, hsrc, hsnk]

theorem State.peerWrite_of_inside {s : State} {a : Word} (b : Byte)
    (h : s.inSourceWindow a = true ∨ s.inSinkWindow a = true) :
    State.peerWrite a b s = .refused (.foreignWindowAccess a) := by
  simp [State.peerWrite, h]

theorem State.peerRead_of_outside {s : State} {a : Word} (h : s.inSinkWindow a = false) :
    State.peerRead a s = .next s := by simp [State.peerRead, h]

theorem State.peerRead_of_inside {s : State} {a : Word} (h : s.inSinkWindow a = true) :
    State.peerRead a s = .refused (.foreignWindowAccess a) := by simp [State.peerRead, h]

/-! ### The rounding shift -/

/-- The weight discarded by a shift, as two halves. -/
theorem two_pow_eq_two_mul_half {t : Nat} (ht : 0 < t) : (2 : Int) ^ t = 2 * 2 ^ (t - 1) := by
  rw [← pow_succ', Nat.sub_add_cancel ht]

/-- The rounding shift is odd (42_datapath.md R174 (b)). -/
theorem rnd_neg (p : Int) {t : Nat} (ht : 0 < t) : rnd (-p) t = -rnd p t := by
  rcases lt_trichotomy p 0 with hp | rfl | hp
  · rw [rnd_of_nonneg ht (by omega), rnd_of_neg ht hp, neg_neg]
  · have half_lt : (2 : Int) ^ (t - 1) < 2 ^ t := pow_lt_pow_right₀ one_lt_two (by omega)
    have zero : rnd 0 t = 0 := by
      rw [rnd_of_nonneg ht le_rfl, zero_add, Int.ediv_eq_zero_of_lt (by positivity) half_lt]
    simp [zero]
  · rw [rnd_of_neg ht (by omega), rnd_of_nonneg ht hp.le, neg_neg]

/-- The rounding shift is nearest: at most half the discarded weight away. -/
theorem rnd_nearest (p : Int) {t : Nat} (ht : 0 < t) : 2 * |rnd p t * 2 ^ t - p| ≤ 2 ^ t := by
  obtain ⟨upper, lower, -, -⟩ := rnd_bounds p ht
  have twice : |2 * (rnd p t * 2 ^ t - p)| ≤ 2 ^ t := abs_le.mpr ⟨by linarith, by linarith⟩
  rwa [abs_mul, abs_two] at twice

/-- A tie at or above 0 goes up, away from zero (42_datapath.md R174 (b)). -/
theorem rnd_tie {t : Nat} (ht : 0 < t) {k : Int} (hk : 0 ≤ k) :
    rnd ((2 * k + 1) * 2 ^ (t - 1)) t = k + 1 := by
  have sum : (2 * k + 1) * 2 ^ (t - 1) + 2 ^ (t - 1) = (k + 1) * (2 : Int) ^ t := by
    rw [two_pow_eq_two_mul_half ht]; ring
  rw [rnd_of_nonneg ht (by positivity), sum, Int.mul_ediv_cancel _ (by positivity)]

/-- Just below the first tie the rounding shift gives 0. -/
theorem rnd_below_tie {t : Nat} (ht : 0 < t) : rnd (2 ^ (t - 1) - 1) t = 0 := by
  have half_pos : (0 : Int) < 2 ^ (t - 1) := by positivity
  have weight := two_pow_eq_two_mul_half ht
  rw [rnd_of_nonneg ht (by omega), Int.ediv_eq_zero_of_lt (by omega) (by omega)]

/-! ### The gain arithmetic -/

/-- The constraints of 00_scope.md R6 on the gain parameters. -/
theorem volMax_bounds_of_paramsOk {p : Params} (h : paramsOk p = true) :
    1 ≤ p.volMax ∧ p.volMax ≤ p.int32Max := by
  simp only [paramsOk, Bool.and_eq_true, decide_eq_true_eq] at h
  obtain ⟨⟨⟨⟨hpos, hle⟩, -⟩, -⟩, -⟩ := h
  exact ⟨hpos, hle⟩

theorem clampGain_le_volMax (p : Params) (v : Word) : clampGain p v ≤ p.volMax := Nat.min_le_right _ _

theorem clampGain_of_le {p : Params} {v : Word} (h : v.toNat ≤ p.volMax) : clampGain p v = v.toNat :=
  Nat.min_eq_left h

/-- The rescale of a gain in range fits: `K` is a quotient by `VOL_MAX`, so `VOL_MAX * K` is at most
`INT32_MAX` (41_gain_table.md R142). -/
theorem rescaleGain_le_int32Max {p : Params} {g : Nat} (h : g ≤ p.volMax) :
    rescaleGain p g ≤ p.int32Max :=
  calc g * rescaleFactor p ≤ p.volMax * rescaleFactor p := Nat.mul_le_mul_right _ h
    _ ≤ p.int32Max := Nat.mul_div_le _ _

theorem rescaleFactor_pos {p : Params} (h : paramsOk p = true) : 1 ≤ rescaleFactor p := by
  obtain ⟨hpos, hle⟩ := volMax_bounds_of_paramsOk h
  exact Nat.div_pos hle hpos

end Sys2Proof.Machine

namespace Sys2Proof.Proofs

open Sys2Proof.Machine Sys2Proof.Safety

/-- Settles O6: the machine's turn is the acceptance of the oldest held word, legal or illegal. -/
theorem stepRunsHeldCommand : Obligations.StepRunsHeldCommand := by
  intro s w rest ts hmoves hidle hheld
  have haccept : step s = State.accept .cmd w { s with turns := ts, cmdHeld := rest } := by
    rw [step_of_machineMoves hmoves]
    exact State.machineTurn_of_held (s := { s with turns := ts }) hidle hheld
  refine ⟨haccept, fun i hlegal => ?_, fun hillegal => ?_⟩
  · rw [haccept, State.accept_of_decode hlegal]
  · rw [haccept, State.accept_of_illegal hillegal]

/-- Settles O7: the configuration agent's turn is the acceptance of its word, whatever `BUSY` holds. -/
theorem stepRunsConfigurationWord : Obligations.StepRunsConfigurationWord := by
  intro s w ts i hturn hlegal
  calc step s = State.accept .cfg w { s with turns := ts } := step_of_turn hturn
    _ = exec i { s with turns := ts, port := .cfg } := State.accept_of_decode hlegal _ _

/-- Settles O21: the clamp bounds the gain by `VOL_MAX`, and `K` is `INT32_MAX div VOL_MAX`. -/
theorem scaledGainFits : Obligations.ScaledGainFits := by
  intro p v hparams
  exact ⟨clampGain_le_volMax p v, clampGain_of_le, rescaleGain_le_int32Max (clampGain_le_volMax p v),
    rescaleFactor_pos hparams⟩

/-- Settles O35: `rnd_tie` gives the two ties at or above 0, and oddness the one below. -/
theorem roundsHalfAwayFromZero : Obligations.RoundsHalfAwayFromZero := by
  intro p t ht
  have tie_one : rnd (2 ^ (t - 1)) t = 1 := by simpa using rnd_tie ht (k := 0) le_rfl
  have tie_three : rnd (3 * 2 ^ (t - 1)) t = 2 := by simpa using rnd_tie ht (k := 1) zero_le_one
  refine ⟨fun hp => ?_, fun hp => ?_, rnd_neg p ht, rnd_nearest p ht, tie_one, ?_, tie_three,
    rnd_below_tie ht⟩
  · rw [rnd_of_nonneg ht hp, Int.shiftRight_eq_div_pow]; norm_cast
  · rw [rnd_of_neg ht hp, Int.shiftRight_eq_div_pow]; norm_cast
  · rw [rnd_neg _ ht, tie_one]

/-- Settles O45: taking a turn off the list leaves the windows as they are, and idle there are none. -/
theorem peerAccess : Obligations.PeerAccess := by
  intro s a b ts
  refine ⟨fun hturn => ⟨fun hfree => ?_, fun hinside => ?_⟩,
    fun hturn => ⟨fun hfree => ?_, fun hinside => ?_⟩⟩
  · have houtside : s.inSourceWindow a = false ∧ s.inSinkWindow a = false :=
      hfree.elim (fun hidle => ⟨State.inSourceWindow_of_idle hidle a, State.inSinkWindow_of_idle hidle a⟩) id
    obtain ⟨hsrc, hsnk⟩ := houtside
    refine ⟨s.mem.store a b, ?_, Memory.byte_store_self _ _ _,
      fun a' hne => Memory.byte_store_ne _ _ hne.symm⟩
    rw [step_of_turn hturn]
    exact State.peerWrite_of_outside (s := { s with turns := ts }) b hsrc hsnk
  · rw [step_of_turn hturn]
    exact State.peerWrite_of_inside (s := { s with turns := ts }) b hinside
  · have hsnk : s.inSinkWindow a = false := hfree.elim (State.inSinkWindow_of_idle · a) id
    rw [step_of_turn hturn]
    exact State.peerRead_of_outside (s := { s with turns := ts }) hsnk
  · rw [step_of_turn hturn]
    exact State.peerRead_of_inside (s := { s with turns := ts }) hinside

end Sys2Proof.Proofs
end

section
/-! PROOFS. The statements about the state: the invariant, ring validity, who writes what, reset. First
the rules the proofs cite (frames of a command and of a routine's step, then what keeps the invariant),
then the statements. -/

namespace Sys2Proof.Machine

open Sys2Proof.Safety
open Sys2Proof.Config (Params)

/-! ### Frames of a command -/

theorem State.ring_respond (s : State) (c : ResultCode) (d : Word) (x : RingSel) :
    (s.respond c d).ring x = s.ring x := by cases x <;> simp [State.ring]

section
variable {i : Instr} {s t : State}

/-- No command writes sample memory (10_state.md R36). -/
theorem CommandEffect.mem_eq (h : CommandEffect i s t) : t.mem = s.mem := by cases h <;> simp

/-- No command writes what stands at the ports but its response. -/
theorem CommandEffect.ports_eq (h : CommandEffect i s t) :
    t.port = s.port ∧ t.cmdHeld = s.cmdHeld ∧ t.turns = s.turns := by cases h <;> simp

theorem CommandEffect.gains_eq (h : CommandEffect i s t) (hi : ∀ a v, i ≠ .configure a v) :
    t.gain = s.gain ∧ t.scaled = s.scaled := by
  cases h with
  | configure a v he => exact absurd he (hi a v)
  | _ => simp

/-- What PROCESS alone writes. -/
theorem CommandEffect.period_eq (h : CommandEffect i s t) (hi : ∀ f, i ≠ .process f) :
    t.act = s.act ∧ t.frames = s.frames ∧ t.busy = s.busy ∧ t.frameIdx = s.frameIdx ∧
      t.chIdx = s.chIdx := by
  cases h with
  | process f he => exact absurd he (hi f)
  | _ => simp

theorem CommandEffect.channels_eq (h : CommandEffect i s t) (hi : ∀ n, i ≠ .strmcfg n)
    (hi' : i ≠ .strmfree) : t.channels = s.channels := by
  cases h with
  | strmcfg n he => exact absurd he (hi n)
  | strmfree he => exact absurd he hi'
  | _ => simp

/-- What NEGOTIATE alone writes. -/
theorem CommandEffect.formats_eq (h : CommandEffect i s t) (hi : ∀ a b, i ≠ .negotiate a b) :
    t.srcFmt = s.srcFmt ∧ t.sinkFmt = s.sinkFmt ∧ t.routine = s.routine := by
  cases h with
  | negotiate a b he => exact absurd he (hi a b)
  | _ => simp

theorem CommandEffect.resolved_eq (h : CommandEffect i s t) (hi : ∀ n, i ≠ .strmcfg n)
    (hi' : i ≠ .strmfree) (hi'' : ∀ a b, i ≠ .negotiate a b) : t.resolved = s.resolved := by
  cases h with
  | strmcfg n he => exact absurd he (hi n)
  | strmfree he => exact absurd he hi'
  | negotiate a b he => exact absurd he (hi'' a b)
  | _ => simp

/-- An RBSET on CMD apart, a command leaves a ring as it is or advances one cursor of a valid one. -/
theorem CommandEffect.ring_cases (h : CommandEffect i s t)
    (hi : s.port = .cmd → ∀ a b v, i ≠ .rbset a b v) (x : RingSel) :
    t.ring x = s.ring x ∨
      (s.ring x).valid = true ∧ ∃ a n f, (i = .rbadvr a n ∧ f = .rptr ∨ i = .rbadvw a n ∧ f = .wptr) ∧
        t.ring x = (s.ring x).set f ((s.ring x).advance ((s.ring x).get f) n.toNat) := by
  cases h with
  | rbset a b v _ _ he hp => exact absurd he (hi hp a b v)
  | advance a n r f he _ _ hv =>
    by_cases hr : r = x
    · subst hr
      exact .inr ⟨hv, a, n, f, he, by rw [State.ring_respond, State.ring_setRing]⟩
    · exact .inl (by rw [State.ring_respond, State.ring_setRing_ne _ _ hr])
  | _ => exact .inl (by cases x <;> simp [State.ring])

end

/-- The ring registers no advance of a cursor writes. -/
theorem CommandEffect.bounds_eq {i : Instr} {s t : State} (h : CommandEffect i s t)
    (hi : ∀ a b v, i ≠ .rbset a b v) (x : RingSel) :
    (t.ring x).addr = (s.ring x).addr ∧ (t.ring x).endAddr = (s.ring x).endAddr := by
  obtain hx | ⟨-, a, n, f, ⟨-, rfl⟩ | ⟨-, rfl⟩, hx⟩ := h.ring_cases (fun _ => hi) x <;> simp [hx]

theorem CommandEffect.rptr_eq {i : Instr} {s t : State} (h : CommandEffect i s t)
    (hi : ∀ a b v, i ≠ .rbset a b v) (hadv : ∀ a n, i ≠ .rbadvr a n) (x : RingSel) :
    (t.ring x).rptr = (s.ring x).rptr := by
  obtain hx | ⟨-, a, n, f, ⟨he, -⟩ | ⟨-, rfl⟩, hx⟩ := h.ring_cases (fun _ => hi) x
  · rw [hx]
  · exact absurd he (hadv a n)
  · simp [hx]

theorem CommandEffect.wptr_eq {i : Instr} {s t : State} (h : CommandEffect i s t)
    (hi : ∀ a b v, i ≠ .rbset a b v) (hadv : ∀ a n, i ≠ .rbadvw a n) (x : RingSel) :
    (t.ring x).wptr = (s.ring x).wptr := by
  obtain hx | ⟨-, a, n, f, ⟨-, rfl⟩ | ⟨he, -⟩, hx⟩ := h.ring_cases (fun _ => hi) x
  · rw [hx]
  · simp [hx]
  · exact absurd he (hadv a n)

/-- An RBSET on CMD apart, no command makes a valid ring invalid (10_state.md R28). -/
theorem CommandEffect.keeps_valid {i : Instr} {s t : State} (h : CommandEffect i s t)
    (hi : s.port = .cmd → ∀ a b v, i ≠ .rbset a b v) {x : RingSel} (hv : (s.ring x).valid = true) :
    (t.ring x).valid = true := by
  obtain hx | ⟨-, a, n, f, ⟨-, rfl⟩ | ⟨-, rfl⟩, hx⟩ := h.ring_cases hi x <;> rw [hx]
  · exact hv
  · exact Ring.valid_advance_rptr hv _ _
  · exact Ring.valid_advance_wptr hv _ _

/-! ### The acceptance of a word -/

/-- An acceptance that answers a next state: the word was illegal, or its command took effect. -/
theorem State.accept_cases {p : Port} {w : Packet} {s t : State} (h : State.accept p w s = .next t) :
    decode (.word w) = none ∧ t = { s with port := p }.respond .badCommand 0 ∨
      ∃ i, decode (.word w) = some i ∧ CommandEffect i { s with port := p } t := by
  obtain ⟨u, hu, he⟩ := State.accept_effect p w s
  obtain rfl : u = t := Host.Outcome.next.inj (hu.symm.trans h)
  exact he

theorem State.accept_mem_eq {p : Port} {w : Packet} {s t : State} (h : State.accept p w s = .next t) :
    t.mem = s.mem := by
  obtain ⟨-, rfl⟩ | ⟨i, -, he⟩ := State.accept_cases h
  · exact State.respond_mem _ _ _
  · exact he.mem_eq

/-- Accepting any word but an RBSET on CMD leaves a valid ring valid (10_state.md R28). -/
theorem State.accept_keeps_valid {p : Port} {w : Packet} {s t : State} {x : RingSel}
    (h : State.accept p w s = .next t)
    (hw : p = .cmd → ∀ a b v, decode (.word w) ≠ some (.rbset a b v)) (hv : (s.ring x).valid = true) :
    (t.ring x).valid = true := by
  have hv' : (({ s with port := p } : State).ring x).valid = true := by cases x <;> exact hv
  obtain ⟨-, rfl⟩ | ⟨i, hd, he⟩ := State.accept_cases h
  · rwa [State.ring_respond]
  · exact he.keeps_valid (fun hp a b v hi => hw hp a b v (hi ▸ hd)) hv'

/-! ### A step of a routine -/

/-- All that a step of a routine can write, on any state. -/
theorem State.sampleStep_nextSample_frame (p : Params) (src snk : SampleFormat) (ch : Fin hw.maxCh)
    (s : State) :
    ∃ m v w fi ci, (State.sampleStep p src snk ch s).nextSample =
      { s with
        mem := m, ringSrc := { s.ringSrc with rptr := v }, ringSnk := { s.ringSnk with wptr := w }
        frameIdx := fi, chIdx := ci } := by
  obtain ⟨m, v, w, he⟩ := State.sampleStep_frame p src snk ch s
  rw [he, State.nextSample]
  split
  · exact ⟨m, v, w, s.frameIdx, s.chIdx + 1, rfl⟩
  · exact ⟨m, v, w, s.frameIdx + 1, 0, rfl⟩

/-- `RbRead` keeps a valid source ring valid. -/
theorem State.rbRead_keeps_valid (n : Nat) {s : State} (h : s.ringSrc.valid = true) :
    (State.rbRead n s).2.ringSrc.valid = true := by
  rw [State.rbRead_eq n h]; exact Ring.valid_advance_rptr h _ _

/-- `RbWrite` keeps a valid sink ring valid. -/
theorem State.rbWrite_keeps_valid (bs : List Byte) {s : State} (h : s.ringSnk.valid = true) :
    (State.rbWrite bs s).ringSnk.valid = true := by
  rw [State.rbWrite_eq bs h]; exact Ring.valid_advance_wptr h _ _

@[simp] theorem State.rbRead_ringSnk (n : Nat) (s : State) :
    (State.rbRead n s).2.ringSnk = s.ringSnk := by
  obtain ⟨v, he⟩ := State.rbRead_frame n s
  rw [he]

@[simp] theorem State.rbRead_mem (n : Nat) (s : State) : (State.rbRead n s).2.mem = s.mem := by
  obtain ⟨v, he⟩ := State.rbRead_frame n s
  rw [he]

@[simp] theorem State.rbWrite_ringSrc (bs : List Byte) (s : State) :
    (State.rbWrite bs s).ringSrc = s.ringSrc := by
  obtain ⟨m, v, he⟩ := State.rbWrite_frame bs s
  rw [he]

/-- A sample step keeps each ring valid by itself, whatever the other is. -/
theorem State.sampleStep_keeps_valid (p : Params) (src snk : SampleFormat) (ch : Fin hw.maxCh)
    {s : State} {x : RingSel} (h : (s.ring x).valid = true) :
    ((State.sampleStep p src snk ch s).ring x).valid = true := by
  cases x with
  | source =>
    show (State.rbWrite _ _).ringSrc.valid = true
    rw [State.rbWrite_ringSrc]
    exact State.rbRead_keeps_valid _ h
  | sink => exact State.rbWrite_keeps_valid _ (by rw [State.rbRead_ringSnk]; exact h)

theorem State.ring_nextSample (s : State) (x : RingSel) : s.nextSample.ring x = s.ring x := by
  cases x <;> simp [State.ring]

/-- On a valid sink ring a sample step stores inside the region only (10_state.md R32). -/
theorem State.sampleStep_byte_outside (p : Params) (src snk : SampleFormat) (ch : Fin hw.maxCh)
    {s : State} (h : s.ringSnk.valid = true) {a : Word} (ha : ¬inRegion s.ringSnk a) :
    (State.sampleStep p src snk ch s).mem.byte a = s.mem.byte a := by
  obtain ⟨hlen, -, -, hlow, hhigh⟩ := (Ring.valid_iff _).1 h
  have houtside : ∀ (bs : List Byte), ∀ j < bs.length, a ≠ s.ringSnk.advance s.ringSnk.wptr j :=
    fun _ j _ he => ha (he ▸ Ring.advance_mem hlen _ j)
  simp only [State.sampleStep]
  rw [State.rbWrite_eq _ (by simpa using h)]
  simp only [State.rbRead_ringSnk, State.rbRead_mem]
  exact Memory.byte_storeWindow_ne hlen _ _ _ _ hlow hhigh (houtside _)

/-- What a store leaves on a byte depends on the memory before through that byte only, and where a byte
of the window was stored not at all. -/
theorem Memory.byte_storeWindow_congr {r : Ring} (hlen : r.addr.toNat < r.endAddr.toNat) {m m' : Memory}
    {pos a : Word} {bs : List Byte} (hlow : r.addr.toNat ≤ pos.toNat) (hhigh : pos.toNat < r.endAddr.toNat)
    (h : m.byte a = m'.byte a ∨ ∃ j < bs.length, a = r.advance pos j) :
    (m.storeWindow r pos bs).byte a = (m'.storeWindow r pos bs).byte a := by
  induction bs generalizing m m' pos with
  | nil => exact h.resolve_right fun ⟨_, hj, _⟩ => Nat.not_lt_zero _ hj
  | cons b bs ih =>
    obtain ⟨hlow', hhigh'⟩ := Ring.advance_mem hlen pos 1
    refine ih hlow' hhigh' ?_
    obtain hm | ⟨_ | j, hj, ha⟩ := h
    · exact .inl (by simp only [Memory.byte_store, hm])
    · rw [Ring.advance_zero hlow hhigh] at ha
      exact .inl (by rw [ha, Memory.byte_store_self, Memory.byte_store_self])
    · refine .inr ⟨j, by simpa using hj, ?_⟩
      rw [Ring.advance_advance hlen, Nat.add_comm, ha]

/-- A window of a valid ring is read from the region only. -/
theorem Memory.window_congr {r : Ring} (hlen : r.addr.toNat < r.endAddr.toNat) {m m' : Memory}
    (h : ∀ a, inRegion r a → m.byte a = m'.byte a) (pos : Word) (n : Nat) :
    m.window r pos n = m'.window r pos n :=
  List.map_congr_left fun j _ => h _ (Ring.advance_mem hlen pos j)

theorem State.nextSample_with_mem (s : State) (m : Memory) :
    State.nextSample { s with mem := m } = { s.nextSample with mem := m } := by
  unfold State.nextSample; split <;> rfl

/-- A sample step reads the source region only (10_state.md R32): on another memory that agrees there it
leaves the same registers, the same bytes in the places it stores to, and every other byte. -/
theorem State.sampleStep_with_mem (p : Params) (src snk : SampleFormat) (ch : Fin hw.maxCh) {s : State}
    {m : Memory} (hsrc : s.ringSrc.valid = true) (hsnk : s.ringSnk.valid = true)
    (h : ∀ a, inRegion s.ringSrc a → m.byte a = s.mem.byte a) :
    ∃ m' : Memory,
      State.sampleStep p src snk ch { s with mem := m } =
        { State.sampleStep p src snk ch s with mem := m' } ∧
      (∀ a, (∃ j < containerBytes snk, a = s.ringSnk.advance s.ringSnk.wptr j) →
        m'.byte a = (State.sampleStep p src snk ch s).mem.byte a) ∧
      (∀ a, ¬(∃ j < containerBytes snk, a = s.ringSnk.advance s.ringSnk.wptr j) → m'.byte a = m.byte a) := by
  obtain ⟨hlenSrc, -⟩ := (Ring.valid_iff _).1 hsrc
  obtain ⟨hlen, -, -, hlow, hhigh⟩ := (Ring.valid_iff _).1 hsnk
  rw [State.sampleStep_eq p src snk ch hsrc hsnk,
    State.sampleStep_eq (s := { s with mem := m }) p src snk ch hsrc hsnk]
  simp only [Memory.window_congr hlenSrc h]
  refine ⟨_, rfl, fun a ha => ?_, fun a ha => ?_⟩
  · exact Memory.byte_storeWindow_congr hlen hlow hhigh (.inr (by simpa only [bytesOf_length] using ha))
  · refine Memory.byte_storeWindow_ne hlen _ _ _ _ hlow hhigh fun j hj he => ha ⟨j, ?_, he⟩
    simpa only [bytesOf_length] using hj

/-! ### The engine's step -/

/-- While a period runs the machine's own move is the engine's step. -/
theorem step_of_busy {s : State} {ts : List Turn} (hm : machineMoves s ts) (hb : s.busy = true) :
    step s = State.engineStep { s with turns := ts } :=
  (step_of_machineMoves hm).trans (if_pos hb)

/-- Quiescence (70_reset_and_hazards.md R282). -/
theorem State.machineTurn_of_quiet {s : State} (hb : s.busy = false) (hh : s.cmdHeld = []) :
    s.machineTurn = .next s := by
  simp only [State.machineTurn, hb, hh, Bool.false_eq_true, if_false]

theorem State.engineStep_of_done {s : State} (h : s.frameIdx = s.frames ∨ s.channels = 0) :
    s.engineStep = .next s.completePeriod := if_pos h

theorem State.engineStep_of_overrun {s : State} (hc : s.channels ≠ 0)
    (hf : s.frames.toNat < s.frameIdx.toNat) : s.engineStep = .fault .noFrame := by
  have hne : s.frameIdx ≠ s.frames := fun he => absurd hf (by simp [he])
  rw [State.engineStep, if_neg (not_or.2 ⟨hne, hc⟩), if_pos (BitVec.lt_def.2 hf)]

/-- While a sample is due the engine runs what `ROUTINE` selects (44_dispatch_facade.md R215). -/
theorem State.engineStep_of_due {s : State} (hc : s.channels ≠ 0)
    (hf : s.frameIdx.toNat < s.frames.toNat) :
    (∀ i, decode (.key s.routine) = some i → s.engineStep = exec i s) ∧
      (decode (.key s.routine) = none → s.engineStep = .fault .noRoutine) := by
  have hne : s.frameIdx ≠ s.frames := fun he => absurd hf (by simp [he])
  have hle : ¬s.frames < s.frameIdx := fun hlt => Nat.lt_asymm hf (BitVec.lt_def.1 hlt)
  rw [State.engineStep, if_neg (not_or.2 ⟨hne, hc⟩), if_neg hle]
  exact ⟨fun i hi => by rw [hi], fun hi => by rw [hi]⟩

/-- Keys 9 to 15 name no routine (30_encoding.md R99). -/
theorem decode_key_of_unnamed {k : BitVec 4} (h : 9 ≤ k.toNat) : decode (.key k) = none := by
  simp only [decode, decodeKey]
  split <;> simp_all

/-! ### Other contents of the gain register files -/

/-- `s` with other contents of the three gain register files. -/
def State.withGains (s : State) (g sc act : Vector Word hw.maxCh) : State :=
  { s with gain := g, scaled := sc, act := act }

section
variable (s : State) (g sc act : Vector Word hw.maxCh)

theorem State.respondOn_withGains (p : Port) (c : ResultCode) (d : Word) :
    (s.withGains g sc act).respondOn p c d = (s.respondOn p c d).withGains g sc act := by
  cases p <;> rfl

theorem State.respond_withGains (c : ResultCode) (d : Word) :
    (s.withGains g sc act).respond c d = (s.respond c d).withGains g sc act :=
  State.respondOn_withGains s g sc act s.port c d

theorem State.nextSample_withGains :
    (s.withGains g sc act).nextSample = s.nextSample.withGains g sc act := by
  by_cases h : s.chIdx.toNat + 1 < s.channels.toNat
  · rw [State.nextSample_of_lt h, State.nextSample_of_lt (s := s.withGains g sc act) h]; rfl
  · rw [State.nextSample_of_ge h, State.nextSample_of_ge (s := s.withGains g sc act) h]; rfl

theorem State.rbRead_withGains (n : Nat) :
    State.rbRead n (s.withGains g sc act) =
      ((State.rbRead n s).1, (State.rbRead n s).2.withGains g sc act) := by
  induction n generalizing s with
  | zero => rfl
  | succ n ih =>
    have h := ih { s with ringSrc := { s.ringSrc with rptr := s.ringSrc.advance s.ringSrc.rptr 1 } }
    simp only [State.withGains] at h
    simp only [State.rbRead, State.withGains, h]

theorem State.rbWrite_withGains (bs : List Byte) :
    State.rbWrite bs (s.withGains g sc act) = (State.rbWrite bs s).withGains g sc act := by
  induction bs generalizing s with
  | nil => rfl
  | cons b bs ih =>
    exact ih
      { s with
        mem := s.mem.store s.ringSnk.wptr b
        ringSnk := { s.ringSnk with wptr := s.ringSnk.advance s.ringSnk.wptr 1 } }

/-- A sample step depends on the gain registers through `ACT[ch]` only (42_datapath.md R163). -/
theorem State.sampleStep_withGains (src snk : SampleFormat) (ch : Fin hw.maxCh)
    (hact : act[ch] = s.act[ch]) :
    State.sampleStep hw src snk ch (s.withGains g sc act) =
      (State.sampleStep hw src snk ch s).withGains g sc act := by
  have hmult : ((State.rbRead (containerBytes src) s).2.withGains g sc act).multiplier hw ch =
      (State.rbRead (containerBytes src) s).2.multiplier hw ch := by
    obtain ⟨v, hv⟩ := State.rbRead_frame (containerBytes src) s
    rw [hv]
    exact congrArg BitVec.toNat hact
  simp only [State.sampleStep, State.rbRead_withGains, hmult, State.rbWrite_withGains]

end

/-- CONFIGURE of a channel of the table, as an update of the gain registers (41_gain_table.md R140). -/
theorem exec_configure_of_lt {a : BitVec 8} (ha : a.toNat < hw.maxCh) (v : Word) (s : State) :
    exec (.configure a v) s =
      .next ((s.withGains (s.gain.set a.toNat (BitVec.ofNat 32 (clampGain hw v)))
        (s.scaled.set a.toNat (BitVec.ofNat 32 (rescaleGain hw (clampGain hw v)))) s.act).respond .ok 0) := by
  simp only [exec, execConfigure, channelIndex_of_lt ha]; rfl

theorem exec_configure_of_ge {a : BitVec 8} (ha : ¬a.toNat < hw.maxCh) (v : Word) (s : State) :
    exec (.configure a v) s = s.raise .badArg := by
  simp only [exec, execConfigure, channelIndex_of_ge ha]

/-- A command other than CONFIGURE is refused on CFG (30_encoding.md R100). -/
theorem exec_of_cfg {i : Instr} (hi : ∀ src snk : SampleFormat, i ≠ src.routine snk)
    (hconf : ∀ a v, i ≠ .configure a v) {s : State} (hp : s.port = .cfg) :
    exec i s = s.raise .badCommand := by
  cases i with
  | configure a v => exact absurd rfl (hconf a v)
  | convS16S16 => exact absurd rfl (hi .s16 .s16)
  | convS16S24 => exact absurd rfl (hi .s16 .s24)
  | convS16S32 => exact absurd rfl (hi .s16 .s32)
  | convS24S16 => exact absurd rfl (hi .s24 .s16)
  | convS24S24 => exact absurd rfl (hi .s24 .s24)
  | convS24S32 => exact absurd rfl (hi .s24 .s32)
  | convS32S16 => exact absurd rfl (hi .s32 .s16)
  | convS32S24 => exact absurd rfl (hi .s32 .s24)
  | convS32S32 => exact absurd rfl (hi .s32 .s32)
  | _ => exact State.onCmd_of_cfg hp _

/-- The acceptance of a CFG word leaves the same state but for `GAIN` and `SCALED`, whatever these held. -/
theorem State.accept_cfg_withGains {w : Packet} {s t : State} (g sc : Vector Word hw.maxCh)
    (h : State.accept .cfg w s = .next t) :
    ∃ g' sc', State.accept .cfg w (s.withGains g sc s.act) = .next (t.withGains g' sc' t.act) := by
  have hraise (c : ResultCode) (ht : ({ s with port := .cfg } : State).raise c = .next t) :
      (({ s with port := .cfg } : State).withGains g sc s.act).raise c = .next (t.withGains g sc t.act) := by
    obtain rfl := Host.Outcome.next.inj ht
    rw [State.raise, State.respond_withGains, State.respond_act]
  cases hd : decode (.word w) with
  | none =>
    simp only [State.accept, hd] at h ⊢
    exact ⟨g, sc, hraise _ h⟩
  | some i =>
    rw [State.accept_of_decode hd] at h ⊢
    by_cases hconf : ∀ a v, i ≠ .configure a v
    · have hi := decode_word_not_routine hd
      rw [exec_of_cfg hi hconf rfl] at h ⊢
      exact ⟨g, sc, hraise _ h⟩
    · push Not at hconf
      obtain ⟨a, v, rfl⟩ := hconf
      by_cases ha : a.toNat < hw.maxCh
      · rw [exec_configure_of_lt ha] at h ⊢
        obtain rfl := Host.Outcome.next.inj h
        simp only [State.respond_withGains]
        exact ⟨_, _, rfl⟩
      · rw [exec_configure_of_ge ha] at h ⊢
        exact ⟨g, sc, hraise _ h⟩

/-- No step of a period but the acceptance of a CFG word looks at `GAIN` or `SCALED`. -/
theorem step_withGains {s t : State} (g sc : Vector Word hw.maxCh) (hbusy : s.busy = true)
    (hreset : noReset s) (hcfg : ∀ w ts, s.turns ≠ .cfg w :: ts) (h : step s = .next t) :
    step (s.withGains g sc s.act) = .next (t.withGains g sc t.act) := by
  cases step_effect h with
  | complete ts hm _ hdone =>
    rw [step_of_busy (s := s.withGains g sc s.act) hm hbusy]
    exact State.engineStep_of_done hdone
  | sample ts src snk ch hm _ hf hc hr hch =>
    rw [step_of_busy (s := s.withGains g sc s.act) hm hbusy]
    obtain ⟨hrun, -⟩ := State.engineStep_of_due (s := { s.withGains g sc s.act with turns := ts }) hc hf
    rw [hrun _ hr, exec_routine, State.routineStep_next_iff]
    refine ⟨ch, hch, ?_⟩
    have hstep := State.sampleStep_withGains { s with turns := ts } g sc s.act src snk ch rfl
    obtain ⟨m, v, u, he⟩ := State.sampleStep_frame hw src snk ch { s with turns := ts }
    rw [State.nextSample_act, ← State.nextSample_withGains]
    refine congrArg State.nextSample (Eq.trans ?_ hstep.symm)
    rw [he]
  | quiet _ _ hidle => simp [hbusy] at hidle
  | accept _ _ _ _ _ hidle => simp [hbusy] at hidle
  | present ts w ht => exact step_of_turn (s := s.withGains g sc s.act) ht
  | configure ts w _ ht => exact absurd ht (hcfg w ts)
  | peerWrite ts a b ht hsrc hsnk =>
    rw [step_of_turn (s := s.withGains g sc s.act) ht]
    exact State.peerWrite_of_outside b hsrc hsnk
  | peerRead ts a ht hsnk =>
    rw [step_of_turn (s := s.withGains g sc s.act) ht]
    exact State.peerRead_of_outside hsnk
  | reset ts ht => exact absurd ht (hreset ts)

/-! ### How far a period is from its completion -/

/-- No fewer steps than these complete the period in flight. -/
def State.stepsLeft (s : State) : Nat :=
  if s.busy then s.samplesTotal - s.samplesDone + 1 else 0

theorem State.stepsLeft_of_busy {s : State} (h : s.busy = true) :
    s.stepsLeft = s.samplesTotal - s.samplesDone + 1 := if_pos h

/-- The counters' advance counts at most one sample. -/
theorem State.samplesDone_nextSample_le (s : State) : s.nextSample.samplesDone ≤ s.samplesDone + 1 := by
  by_cases hc : s.chIdx.toNat + 1 < s.channels.toNat
  · have hnext : (s.chIdx + 1).toNat ≤ s.chIdx.toNat + 1 := by
      rw [BitVec.toNat_add]; exact Nat.mod_le _ _
    rw [State.nextSample_of_lt hc]
    simp only [State.samplesDone]
    omega
  · have hnext : (s.frameIdx + 1).toNat ≤ s.frameIdx.toNat + 1 := by
      rw [BitVec.toNat_add]; exact Nat.mod_le _ _
    have hframe := Nat.mul_le_mul_right s.channels.toNat hnext
    rw [Nat.succ_mul] at hframe
    rw [State.nextSample_of_ge hc]
    show (s.frameIdx + 1).toNat * s.channels.toNat + 0 ≤
      s.frameIdx.toNat * s.channels.toNat + s.chIdx.toNat + 1
    omega

/-- A step of a routine takes at most one of the steps left. -/
theorem State.stepsLeft_le_nextSample {s : State} (h : s.busy = true) :
    s.stepsLeft ≤ s.nextSample.stepsLeft + 1 := by
  have hdone := s.samplesDone_nextSample_le
  have htotal : s.nextSample.samplesTotal = s.samplesTotal := by simp [State.samplesTotal]
  rw [State.stepsLeft_of_busy h, State.stepsLeft_of_busy (by simpa using h), htotal]
  omega

/-- With every frame done, or no channel to process, no sample is left. -/
theorem State.samplesTotal_le_of_done {s : State} (h : s.frameIdx = s.frames ∨ s.channels = 0) :
    s.samplesTotal ≤ s.samplesDone := by
  obtain h | h := h
  · rw [State.samplesTotal, State.samplesDone, h]; exact Nat.le_add_right _ _
  · simp [State.samplesTotal, h]

/-- The engine's own step: words held on CMD stay, and at most one of the steps left is taken. -/
theorem step_of_busy_alone {s t : State} (hbusy : s.busy = true) (hturns : s.turns = [])
    (h : step s = .next t) :
    t.turns = [] ∧ t.cmdHeld = s.cmdHeld ∧ s.stepsLeft ≤ t.stepsLeft + 1 := by
  have hnil {ts : List Turn} (hm : machineMoves s ts) : ts = [] := by
    obtain hm | ⟨-, rfl⟩ := hm
    · rw [hturns] at hm; cases hm
    · rfl
  cases step_effect h with
  | complete ts hm _ hdone =>
    obtain rfl := hnil hm
    have hle := State.samplesTotal_le_of_done hdone
    exact ⟨rfl, rfl, by rw [State.stepsLeft_of_busy hbusy]; omega⟩
  | sample ts src snk ch hm =>
    obtain rfl := hnil hm
    obtain ⟨m, v, w, he⟩ := State.sampleStep_frame hw src snk ch { s with turns := [] }
    rw [he]
    refine ⟨State.nextSample_turns _, State.nextSample_cmdHeld _, ?_⟩
    refine (State.stepsLeft_le_nextSample hbusy).trans (le_of_eq ?_)
    simp only [State.stepsLeft, State.samplesTotal, State.samplesDone, State.nextSample]
    split <;> rfl
  | quiet _ _ hidle => simp [hbusy] at hidle
  | accept _ _ _ _ _ hidle => simp [hbusy] at hidle
  | present _ _ ht => rw [hturns] at ht; cases ht
  | configure _ _ _ ht => rw [hturns] at ht; cases ht
  | peerWrite _ _ _ ht => rw [hturns] at ht; cases ht
  | peerRead _ _ ht => rw [hturns] at ht; cases ht
  | reset _ ht => rw [hturns] at ht; cases ht

/-- A run with the engine alone, as far as a completion where words are held: other contents of `GAIN`
and `SCALED` change no step of it. -/
theorem runs_withGains {k : Nat} {s t : State} (g sc : Vector Word hw.maxCh) (hturns : s.turns = [])
    (h : s.cmdHeld = [] ∨ k ≤ s.stepsLeft) (hruns : runs k s t) :
    runs k (s.withGains g sc s.act) (t.withGains g sc t.act) := by
  induction k generalizing s with
  | zero => cases hruns; rfl
  | succ k ih =>
    obtain ⟨u, hstep, hrest⟩ := hruns
    cases hbusy : s.busy with
    | true =>
      obtain ⟨hturns', hheld, hleft⟩ := step_of_busy_alone hbusy hturns hstep
      refine ⟨_, step_withGains g sc hbusy (by simp [noReset, hturns]) (by simp [hturns]) hstep,
        ih hturns' ?_ hrest⟩
      exact h.imp hheld.trans (by omega)
    | false =>
      have hheld : s.cmdHeld = [] := h.resolve_right (by simp [State.stepsLeft, hbusy])
      have hquiet (v : State) (ht : v.turns = []) (hb : v.busy = false) (hh : v.cmdHeld = []) :
          step v = .next v := by
        rw [step_of_machineMoves (.inr ⟨ht, rfl⟩), ← ht]
        exact State.machineTurn_of_quiet hb hh
      obtain rfl := Host.Outcome.next.inj ((hquiet s hturns hbusy hheld).symm.trans hstep)
      exact ⟨_, hquiet _ hturns hbusy hheld, ih hturns (.inl hheld) hrest⟩

/-! ### Reading commands and failures -/

/-- A response with `OK` is its data word (30_encoding.md R96). -/
theorem toNat_responseWord_ok (d : Word) : (responseWord .ok d).toNat = d.toNat := by
  have hhigh : (0#24 ++ codeNumber .ok).toNat = 0 := by decide
  rw [responseWord, BitVec.toNat_append, hhigh, Nat.zero_shiftLeft, Nat.zero_or]

theorem responseWord_ok_zero : responseWord .ok 0 = 0#64 := rfl

/-- The status word as a sum of its fields (10_state.md R30). -/
theorem toNat_statusWord (s : State) :
    (statusWord s).toNat =
      s.channels.toNat * 2 ^ 16 + s.sinkFmt.toNat * 2 ^ 8 + s.srcFmt.toNat * 2 ^ 4 + s.resolved.toNat := by
  have append_toNat {m n : Nat} (x : BitVec m) (y : BitVec n) :
      (x ++ y).toNat = x.toNat * 2 ^ n + y.toNat := by
    rw [BitVec.toNat_append, ← Nat.shiftLeft_add_eq_or_of_lt y.isLt, Nat.shiftLeft_eq]
  simp only [statusWord, append_toNat, BitVec.toNat_ofNat, BitVec.toNat_ofBool]
  omega

theorem exec_getst_of_cmd {s : State} (h : s.port = .cmd) :
    exec .getst s = .next (answered .cmd (responseWord .ok (statusWord s)) s) := by
  rw [← h, ← State.respond_eq_answered]
  exact State.onCmd_of_cmd h _

theorem exec_getgain_of_cmd {s : State} {a b : BitVec 8} {ch : Fin hw.maxCh} {f : GainSel}
    (h : s.port = .cmd) (ha : channelIndex a = some ch) (hb : gainSel b = some f) :
    exec (.getgain a b) s = .next (answered .cmd (responseWord .ok (s.gainReg f ch)) s) := by
  rw [← h, ← State.respond_eq_answered]
  simp only [exec, execGetgain, State.onCmd_of_cmd h, ha, hb]

theorem exec_rbget_of_cmd {s : State} {a b : BitVec 8} {x : RingSel} {f : RingField}
    (h : s.port = .cmd) (ha : ringSel a = some x) (hb : ringField b = some f) :
    exec (.rbget a b) s = .next (answered .cmd (responseWord .ok ((s.ring x).get f)) s) := by
  rw [← h, ← State.respond_eq_answered]
  simp only [exec, execRbget, State.onCmd_of_cmd h, ha, hb]

theorem exec_process_of_unresolved {s : State} (h : s.port = .cmd) (hr : s.resolved = false) (f : Word) :
    exec (.process f) s = .next (answered .cmd (responseWord .notResolved 0) s) := by
  rw [← h, ← State.respond_eq_answered]
  exact (State.onCmd_of_cmd h _).trans (if_pos hr)

/-- RBADVR and RBADVW of a ring that is not valid (40_ring_buffer.md R122, R123). -/
theorem exec_rbadv_of_invalid {s : State} {a : BitVec 8} {x : RingSel} (h : s.port = .cmd)
    (ha : ringSel a = some x) (hv : (s.ring x).valid = false) (n : Word) :
    exec (.rbadvr a n) s = .next (answered .cmd (responseWord .badRing 0) s) ∧
      exec (.rbadvw a n) s = .next (answered .cmd (responseWord .badRing 0) s) := by
  rw [← h, ← State.respond_eq_answered]
  simp only [exec, execRbadvr, execRbadvw, State.onCmd_of_cmd h, State.advanceCursor, ha, hv, if_true,
    State.raise, and_self]

/-! ### The state after reset -/

theorem gainReg_reset (f : GainSel) (ch : Fin hw.maxCh) : State.reset.gainReg f ch = 0 := by
  cases f <;> simp [State.gainReg, State.reset, rescaleFactor]

theorem statusWord_reset : statusWord State.reset = 0 := by decide

theorem ring_reset (x : RingSel) : State.reset.ring x = Ring.reset := by cases x <;> rfl

theorem ring_get_reset (x : RingSel) (f : RingField) : (State.reset.ring x).get f = 0 := by
  rw [ring_reset]; cases f <;> rfl

theorem ring_valid_reset (x : RingSel) : (State.reset.ring x).valid = false := by
  rw [ring_reset]; rfl

end Sys2Proof.Machine

namespace Sys2Proof.Safety

open Sys2Proof.Machine
open Sys2Proof.Config (Params)

/-! ### What keeps the invariant

The fields from `port` on are no part of it, so a record update of those keeps it field by field. -/

section
variable {s : State}

/-- While no period runs the invariant bounds registers only. -/
theorem Invariant.of_idle (hidle : s.busy = false) (hmem : s.mem.wf = true)
    (hgain : ∀ ch : Fin hw.maxCh, s.gain[ch].toNat ≤ hw.volMax)
    (hscaled : ∀ ch : Fin hw.maxCh, s.scaled[ch].toNat = s.gain[ch].toNat * rescaleFactor hw)
    (hact : ∀ ch : Fin hw.maxCh, s.act[ch].toNat ≤ hw.int32Max)
    (hchannels : s.channels.toNat ≤ hw.maxCh) (hsrc : s.srcFmt.toNat ≤ 2) (hsnk : s.sinkFmt.toNat ≤ 2)
    (hroutine : s.resolved = true → s.routine.toNat = 3 * s.srcFmt.toNat + s.sinkFmt.toNat) :
    Invariant s := by
  have hbusy : ¬s.busy = true := by simp [hidle]
  exact ⟨hmem, hgain, hscaled, hact, hchannels, hsrc, hsnk, hroutine, (absurd · hbusy), (absurd · hbusy),
    (absurd · hbusy), (absurd · hbusy), (absurd · hbusy)⟩

theorem Invariant.respond (h : Invariant s) (c : ResultCode) (d : Word) : Invariant (s.respond c d) := by
  rw [State.respond_eq_answered]
  cases s.port <;> exact { h with }

theorem Invariant.completePeriod (h : Invariant s) : Invariant s.completePeriod :=
  .of_idle rfl h.memWf h.gainBound h.scaledIs h.actBound h.channelsBound h.srcFmtNamed h.sinkFmtNamed
    h.routineIs

/-- STRMCFG and STRMFREE: no period runs, and an unresolved stream names no routine. -/
theorem Invariant.release (h : Invariant s) (hidle : s.busy = false) {n : BitVec 8}
    (hn : n.toNat ≤ hw.maxCh) : Invariant { s with channels := n, resolved := false } :=
  .of_idle hidle h.memWf h.gainBound h.scaledIs h.actBound hn h.srcFmtNamed h.sinkFmtNamed nofun

theorem Invariant.negotiate (h : Invariant s) (hidle : s.busy = false) {a b : BitVec 8}
    (ha : a.toNat ≤ 2) (hb : b.toNat ≤ 2) :
    Invariant { s with
      srcFmt := a.setWidth 2
      sinkFmt := b.setWidth 2
      routine := BitVec.ofNat 4 (3 * a.toNat + b.toNat)
      resolved := true } := by
  have hsrc : (a.setWidth 2).toNat = a.toNat := by rw [BitVec.toNat_setWidth]; omega
  have hsnk : (b.setWidth 2).toNat = b.toNat := by rw [BitVec.toNat_setWidth]; omega
  refine .of_idle hidle h.memWf h.gainBound h.scaledIs h.actBound h.channelsBound ?_ ?_ fun _ => ?_
  · simpa only [hsrc] using ha
  · simpa only [hsnk] using hb
  · simp only [hsrc, hsnk, BitVec.toNat_ofNat]; omega

/-- A legal gain fits the multiplier, since `SCALED = GAIN * K` (42_datapath.md R163). -/
theorem Invariant.scaledBound (h : Invariant s) (ch : Fin hw.maxCh) : s.scaled[ch].toNat ≤ hw.int32Max := by
  rw [h.scaledIs ch]
  exact rescaleGain_le_int32Max (p := hw) (h.gainBound ch)

/-- The acceptance of PROCESS (44_dispatch_facade.md R214). -/
theorem Invariant.process (h : Invariant s) (f : Word) (hr : s.resolved = true)
    (hsrc : s.ringSrc.valid = true) (hsnk : s.ringSnk.valid = true) :
    Invariant { s with act := s.scaled, frames := f, frameIdx := 0, chIdx := 0, busy := true } :=
  { h with
    actBound := h.scaledBound
    busyResolved := fun _ => hr
    busySrcValid := fun _ => hsrc
    busySnkValid := fun _ => hsnk
    busyFrame := fun _ => Nat.zero_le _
    busyChannel := fun _ hc => Nat.pos_of_ne_zero hc }

/-- CONFIGURE writes a gain and its rescale together (41_gain_table.md R143). -/
theorem Invariant.configure (h : Invariant s) (a : Nat) (ha : a < hw.maxCh) (v : Word) :
    Invariant { s with
      gain := s.gain.set a (BitVec.ofNat 32 (clampGain hw v)) ha
      scaled := s.scaled.set a (BitVec.ofNat 32 (rescaleGain hw (clampGain hw v))) ha } := by
  have hclamp : clampGain hw v ≤ 2147483647 := clampGain_le_volMax hw v
  have hgain : (BitVec.ofNat 32 (clampGain hw v)).toNat = clampGain hw v := by
    rw [BitVec.toNat_ofNat]; omega
  have hscaled : (BitVec.ofNat 32 (rescaleGain hw (clampGain hw v))).toNat =
      clampGain hw v * rescaleFactor hw := by
    rw [BitVec.toNat_ofNat, rescaleGain, Laws.rescaleFactor_hw]; omega
  refine { h with gainBound := fun ch => ?_, scaledIs := fun ch => ?_ }
  · by_cases hch : a = ch.val
    · simpa [Fin.getElem_fin, hch, hgain] using hclamp
    · simpa [Fin.getElem_fin, Vector.getElem_set, hch] using h.gainBound ch
  · by_cases hch : a = ch.val
    · simp only [Fin.getElem_fin, hch, Vector.getElem_set_self, hgain, hscaled]
    · simpa [Fin.getElem_fin, Vector.getElem_set, hch] using h.scaledIs ch

/-- A ring may hold anything while no period runs. -/
theorem Invariant.setRing (h : Invariant s) (hidle : s.busy = false) (x : RingSel) (r : Ring) :
    Invariant (s.setRing x r) := by
  cases x <;>
    exact .of_idle hidle h.memWf h.gainBound h.scaledIs h.actBound h.channelsBound h.srcFmtNamed
      h.sinkFmtNamed h.routineIs

/-- Every command keeps the invariant; those that CMD alone may carry are accepted while idle only. -/
theorem Invariant.of_command {i : Instr} {t : State} (h : Invariant s) (he : CommandEffect i s t)
    (hidle : s.port = .cmd → s.busy = false) : Invariant t := by
  cases he with
  | failed c => exact h.respond c 0
  | read d => exact h.respond .ok d
  | strmcfg n _ hp hn => exact (h.release (hidle hp) hn).respond .ok 0
  | strmfree _ hp => exact (h.release (hidle hp) (Nat.zero_le _)).respond .ok 0
  | negotiate a b _ hp ha hb => exact (h.negotiate (hidle hp) ha hb).respond .ok 0
  | process f _ _ hr hsrc hsnk => exact h.process f hr hsrc hsnk
  | configure a v _ ha => exact (h.configure a.toNat ha v).respond .ok 0
  | rbset _ _ v r f _ hp => exact (h.setRing (hidle hp) r _).respond .ok 0
  | advance _ n r f _ hp => exact (h.setRing (hidle hp) r _).respond .ok 0

/-- The acceptance of a word, legal or not. -/
theorem Invariant.of_accept {p : Port} {w : Packet} {t : State} (h : Invariant s)
    (hidle : p = .cmd → s.busy = false) (ha : State.accept p w s = .next t) : Invariant t := by
  have hport : Invariant { s with port := p } := { h with }
  obtain ⟨-, rfl⟩ | ⟨i, -, he⟩ := State.accept_cases ha
  · exact hport.respond _ _
  · exact hport.of_command he hidle

/-- The bytes and cursors a sample step writes. -/
theorem Invariant.sampleStep (h : Invariant s) (p : Params) (src snk : SampleFormat) (ch : Fin hw.maxCh) :
    Invariant (State.sampleStep p src snk ch s) := by
  have hmem := State.sampleStep_wf p src snk ch h.memWf
  have hsrc := fun hb => State.sampleStep_keeps_valid p src snk ch (x := .source) (h.busySrcValid hb)
  have hsnk := fun hb => State.sampleStep_keeps_valid p src snk ch (x := .sink) (h.busySnkValid hb)
  obtain ⟨m, v, w, he⟩ := State.sampleStep_frame p src snk ch s
  rw [he] at hmem hsrc hsnk ⊢
  exact { h with memWf := hmem, busySrcValid := hsrc, busySnkValid := hsnk }

/-- The counters' advance while a sample is left (44_dispatch_facade.md R215). -/
theorem Invariant.nextSample (h : Invariant s) (hf : s.frameIdx.toNat < s.frames.toNat) :
    Invariant s.nextSample := by
  by_cases hc : s.chIdx.toNat + 1 < s.channels.toNat
  · have hnext : (s.chIdx + 1).toNat = s.chIdx.toNat + 1 := by
      rw [BitVec.toNat_add_of_not_uaddOverflow] <;> simp [BitVec.uaddOverflow]; omega
    rw [State.nextSample_of_lt hc]
    exact { h with busyChannel := fun _ _ => hnext ▸ hc }
  · have hnext : (s.frameIdx + 1).toNat = s.frameIdx.toNat + 1 := by
      rw [BitVec.toNat_add_of_not_uaddOverflow] <;> simp [BitVec.uaddOverflow]; omega
    rw [State.nextSample_of_ge hc]
    exact { h with
      busyFrame := fun _ => hnext ▸ hf
      busyChannel := fun _ hne => Nat.pos_of_ne_zero hne }

end

theorem invariant_reset : Invariant State.reset :=
  .of_idle rfl rfl (by decide) (by decide) (by decide) (by decide) (by decide) (by decide) nofun

/-- The reset input keeps of the memory what it was (70_reset_and_hazards.md R270). -/
theorem Invariant.resetInput {s : State} (h : Invariant s) : Invariant s.resetInput :=
  { invariant_reset with memWf := h.memWf }

end Sys2Proof.Safety

namespace Sys2Proof.Proofs

open Sys2Proof.Machine Sys2Proof.Safety

/-- Settles O51: one rule of the invariant per kind of turn. -/
theorem stepKeepsInvariant : Obligations.StepKeepsInvariant := by
  intro s t h hstep
  have hturn (ts : List Turn) : Invariant { s with turns := ts } := { h with }
  cases step_effect hstep with
  | complete ts => exact (hturn ts).completePeriod
  | sample ts src snk ch _ _ hf =>
    refine ((hturn ts).sampleStep hw src snk ch).nextSample ?_
    obtain ⟨m, v, w, he⟩ := State.sampleStep_frame hw src snk ch { s with turns := ts }
    rw [he]
    exact hf
  | quiet ts => exact hturn ts
  | accept ts w rest _ _ hidle _ ha =>
    have hheld : Invariant { s with turns := ts, cmdHeld := rest } := { h with }
    exact hheld.of_accept (fun _ => hidle) ha
  | present => exact { h with }
  | configure ts w _ _ ha => exact (hturn ts).of_accept (p := .cfg) nofun ha
  | peerWrite ts a b => exact { h with memWf := Memory.wf_store a b h.memWf }
  | peerRead ts => exact hturn ts
  | reset ts => exact (hturn ts).resetInput

/-- Settles O27: a command by the frames of its effect, a routine by the frame of its step. -/
theorem accessTable : Obligations.AccessTable := by
  intro i s t hexec conv
  by_cases hconv : conv
  · obtain ⟨src, snk, rfl⟩ := hconv
    rw [exec_routine, State.routineStep_next_iff] at hexec
    obtain ⟨ch, -, rfl⟩ := hexec
    have hregion (hv : s.ringSnk.valid = true) (a : Word) (ha : ¬inRegion s.ringSnk a) :
        (State.sampleStep hw src snk ch s).nextSample.mem.byte a = s.mem.byte a := by
      rw [State.nextSample_mem, State.sampleStep_byte_outside hw src snk ch hv ha]
    obtain ⟨m, v, w, fi, ci, he⟩ := State.sampleStep_nextSample_frame hw src snk ch s
    rw [he] at hregion ⊢
    have hroutine : ¬¬conv := not_not_intro ⟨src, snk, rfl⟩
    exact ⟨fun _ => ⟨rfl, rfl⟩, fun _ => ⟨rfl, rfl, rfl⟩, fun _ _ => rfl, fun _ => ⟨rfl, rfl, rfl⟩,
      fun _ _ _ => rfl,
      fun _ => ⟨rfl, rfl, rfl, rfl, fun _ => ⟨rfl, (absurd · hroutine)⟩,
        fun _ => ⟨rfl, (absurd · hroutine)⟩⟩,
      (absurd · hroutine), fun _ => ⟨rfl, rfl, hregion⟩, rfl, rfl, rfl⟩
  · obtain ⟨u, hu, he⟩ := exec_command (fun src snk hi => hconv ⟨src, snk, hi⟩) s
    obtain rfl : u = t := Host.Outcome.next.inj (hu.symm.trans hexec)
    refine ⟨he.gains_eq, fun hi => ?_, he.channels_eq, he.formats_eq, he.resolved_eq, fun hi => ?_,
      fun _ => ⟨he.mem_eq, fun hi => ?_⟩, (absurd · hconv), he.ports_eq⟩
    · obtain ⟨hact, hframes, hbusy, -, -⟩ := he.period_eq hi
      exact ⟨hact, hframes, hbusy⟩
    · obtain ⟨haddrSrc, hendSrc⟩ := he.bounds_eq hi .source
      obtain ⟨haddrSnk, hendSnk⟩ := he.bounds_eq hi .sink
      exact ⟨haddrSrc, hendSrc, haddrSnk, hendSnk,
        fun hadv => ⟨he.rptr_eq hi hadv .sink, fun _ => he.rptr_eq hi hadv .source⟩,
        fun hadv => ⟨he.wptr_eq hi hadv .source, fun _ => he.wptr_eq hi hadv .sink⟩⟩
    · obtain ⟨-, -, -, hframe, hch⟩ := he.period_eq hi
      exact ⟨hframe, hch⟩

/-- Settles O42: of the turns, only a sample step and the acceptance of a word move a cursor. -/
theorem ringValidityKept : Obligations.RingValidityKept := by
  refine ⟨fun r => ?_, fun r hv => ?_, fun r hin => ?_, fun s t x hv hreset hrbset hstep => ?_⟩
  · rw [Ring.valid_iff]; simp only [inRegion, and_assoc]
  · obtain ⟨hlen, -⟩ := (Ring.valid_iff r).1 hv
    have hend := r.endAddr.isLt
    omega
  · have hend := r.endAddr.isLt
    have hlt : 2 ^ 32 - 1 < r.endAddr.toNat := hin.2
    omega
  · have hturn (ts : List Turn) : (({ s with turns := ts } : State).ring x).valid = true := by
      cases x <;> exact hv
    cases step_effect hstep with
    | complete ts => cases x <;> exact hv
    | sample ts src snk ch =>
      rw [State.ring_nextSample]
      exact State.sampleStep_keeps_valid hw src snk ch (hturn ts)
    | quiet ts => exact hturn ts
    | accept ts w rest _ hmoves hidle hheld ha =>
      exact State.accept_keeps_valid ha (fun _ a b v => hrbset ts w rest a b v hmoves hidle hheld)
        (by cases x <;> exact hv)
    | present => cases x <;> exact hv
    | configure ts w _ _ ha => exact State.accept_keeps_valid ha nofun (hturn ts)
    | peerWrite => cases x <;> exact hv
    | peerRead ts => exact hturn ts
    | reset ts ht => exact absurd ht (hreset ts)

/-- Settles O43: of the turns left, only a sample step stores, and a period runs on a valid sink ring. -/
theorem engineWritesSinkRegionOnly : Obligations.EngineWritesSinkRegionOnly := by
  intro s t hinv hreset hstep hpeer a ha
  cases step_effect hstep with
  | sample ts src snk ch _ hbusy =>
    rw [State.nextSample_mem]
    exact State.sampleStep_byte_outside (s := { s with turns := ts }) hw src snk ch (hinv.busySnkValid hbusy) ha
  | accept _ _ _ _ _ _ _ haccept => rw [State.accept_mem_eq haccept]
  | configure _ _ _ _ haccept => rw [State.accept_mem_eq haccept]
  | peerWrite ts b c ht => exact absurd ht (hpeer b c ts)
  | reset ts ht => exact absurd ht (hreset ts)
  | complete | quiet | present | peerRead => rfl

/-- Settles O44: the sample step on the other memory, then the counters. -/
theorem engineReadsSourceRegionOnly : Obligations.EngineReadsSourceRegionOnly := by
  intro src snk s t m hsrc hsnk hagree hexec
  rw [exec_routine, State.routineStep_next_iff] at hexec
  obtain ⟨ch, hch, rfl⟩ := hexec
  obtain ⟨m', hstep, hstored, hother⟩ := State.sampleStep_with_mem hw src snk ch hsrc hsnk hagree
  refine ⟨m', ?_, fun a => ?_⟩
  · rw [exec_routine, State.routineStep_next_iff]
    exact ⟨ch, hch, ((congrArg State.nextSample hstep).trans (State.nextSample_with_mem _ _)).symm⟩
  · rw [State.nextSample_mem]
    split
    · exact hstored a ‹_›
    · exact hother a ‹_›

/-- Settles O55: a sample step takes its gain from `ACT`, and no other step of a period reads a gain. -/
theorem gainUpdateDoesNotReachPeriod : Obligations.GainUpdateDoesNotReachPeriod := by
  refine ⟨fun s t g sc hbusy hreset hstep => ?_, fun k s t g sc hbusy hturns hlimit hruns => ?_⟩
  · by_cases hcfg : ∀ w ts, s.turns ≠ .cfg w :: ts
    · exact ⟨g, sc, step_withGains g sc hbusy hreset hcfg hstep, fun _ => ⟨rfl, rfl⟩⟩
    · have hcfg' := hcfg
      push Not at hcfg'
      obtain ⟨w, ts, ht⟩ := hcfg'
      rw [step_of_turn ht] at hstep
      obtain ⟨g', sc', haccept⟩ := State.accept_cfg_withGains g sc hstep
      refine ⟨g', sc', ?_, fun h => absurd h hcfg⟩
      rw [step_of_turn (s := { s with gain := g, scaled := sc }) ht]
      exact haccept
  · refine runs_withGains g sc hturns (hlimit.imp_right fun hk => ?_) hruns
    rwa [State.stepsLeft_of_busy hbusy]

/-- Settles O50. -/
theorem resetMeetsInvariant : Obligations.ResetMeetsInvariant := invariant_reset

/-- Settles O26: each side is the sum of the fields at their weights. -/
theorem getstResult : Obligations.GetstResult := by
  intro s hport
  have hword : responseWord .ok (statusWord s) = BitVec.ofNat 64
      (s.channels.toNat * 2 ^ 16 + s.sinkFmt.toNat * 2 ^ 8 + s.srcFmt.toNat * 2 ^ 4 + s.resolved.toNat) := by
    rw [← toNat_statusWord, ← toNat_responseWord_ok, BitVec.ofNat_toNat, BitVec.setWidth_eq]
  rw [exec_getst_of_cmd hport, hword]

/-- Settles O48: the values of `State.reset`, and what each command reads there. -/
theorem resetValues : Obligations.ResetValues := by
  unfold Obligations.ResetValues
  intro s
  have hport : s.port = .cmd := rfl
  have hsel {a : BitVec 8} (ha : a.toNat ≤ 1) : ∃ x, ringSel a = some x :=
    Option.ne_none_iff_exists'.1 fun h => absurd (ringSel_eq_none.1 h) (by omega)
  refine ⟨fun ch => ⟨gainReg_reset .gain ch, gainReg_reset .scaled ch, gainReg_reset .act ch⟩,
    rfl, rfl, rfl, rfl, rfl, fun a => rfl, rfl, rfl, ring_valid_reset .source, ring_valid_reset .sink,
    ?_, fun a b ha hb => ?_, fun a b ha hb => ?_, exec_process_of_unresolved hport rfl, fun a n ha => ?_⟩
  · have hread : statusWord s = 0 := statusWord_reset
    rw [exec_getst_of_cmd hport, hread, responseWord_ok_zero]
  · obtain ⟨f, hf⟩ := Option.ne_none_iff_exists'.1 fun h => absurd (gainSel_eq_none.1 h) (not_lt.2 hb)
    have hread : s.gainReg f ⟨a.toNat, ha⟩ = 0 := gainReg_reset f _
    rw [exec_getgain_of_cmd hport (channelIndex_of_lt ha) hf, hread, responseWord_ok_zero]
  · obtain ⟨x, hx⟩ := hsel ha
    obtain ⟨f, hf⟩ := Option.ne_none_iff_exists'.1 fun h => absurd (ringField_eq_none.1 h) (not_lt.2 hb)
    have hread : (s.ring x).get f = 0 := ring_get_reset x f
    rw [exec_rbget_of_cmd hport hx hf, hread, responseWord_ok_zero]
  · obtain ⟨x, hx⟩ := hsel ha
    exact exec_rbadv_of_invalid hport hx (ring_valid_reset x) n

/-- Settles O49: the reset input's turn is `State.resetInput`, whatever `BUSY` holds. -/
theorem resetAtAnyTime : Obligations.ResetAtAnyTime := by
  intro s ts hturn
  exact ⟨State.resetInput { s with turns := ts }, step_of_turn hturn,
    fun ch => ⟨gainReg_reset .gain ch, gainReg_reset .scaled ch, gainReg_reset .act ch⟩,
    rfl, rfl, rfl, rfl, rfl, rfl, rfl, rfl, rfl, rfl, rfl, fun a => rfl⟩

/-- Settles O53: `channelIndex` names no channel there, and the engine's step has no other case. -/
theorem unreachableStatesFault : Obligations.UnreachableStatesFault := by
  refine ⟨fun src snk s hch => ?_, fun s ts hmoves hbusy hc => ⟨fun hover => ?_, fun hdue hkey => ?_⟩⟩
  · rw [exec_routine, State.routineStep_fault_iff]
    exact ⟨channelIndex_of_ge (not_lt.2 hch), rfl⟩
  · rw [step_of_busy hmoves hbusy]
    exact State.engineStep_of_overrun (s := { s with turns := ts }) hc hover
  · obtain ⟨-, hnone⟩ := State.engineStep_of_due (s := { s with turns := ts }) hc hdue
    rw [step_of_busy hmoves hbusy]
    exact hnone (decode_key_of_unnamed hkey)

end Sys2Proof.Proofs
end

section
/-! PROOFS. The statements about rings and sample memory: cursors and windows, containers, a step of a
routine, the output of a whole period. First the rules the proofs cite, then the statements. -/

namespace Sys2Proof.Machine

open Sys2Proof.Safety

/-! ### Cursors and windows -/

/-- Two advances of one cursor meet exactly when their counts differ by whole laps. -/
theorem Ring.advance_eq_advance_iff {r : Ring} (hlen : r.addr.toNat < r.endAddr.toNat) (cur : Word)
    (j k : Nat) :
    r.advance cur j = r.advance cur k ↔ j ≡ k [MOD r.endAddr.toNat - r.addr.toNat] := by
  rw [← BitVec.toNat_inj, Ring.toNat_advance hlen, Ring.toNat_advance hlen, Nat.add_right_inj]
  exact ⟨Nat.ModEq.add_left_cancel' _, Nat.ModEq.add_left _⟩

/-- The places of a run no longer than the region are distinct. -/
theorem Ring.advance_ne {r : Ring} (hlen : r.addr.toNat < r.endAddr.toNat) (cur : Word) {j k : Nat}
    (hjk : j < k) (hk : k < r.endAddr.toNat - r.addr.toNat) : r.advance cur j ≠ r.advance cur k :=
  fun h => hjk.ne (((Ring.advance_eq_advance_iff hlen cur j k).1 h).eq_of_lt_of_lt (hjk.trans hk) hk)

/-- Modulo the length, `b` bytes on and the rest of a lap on cancel, in either order. -/
theorem add_mod_add_sub_mod {len b : Nat} (hb : b ≤ len) (x : Nat) :
    ((b + x) % len + (len - b)) % len = x % len ∧ (b + (x + (len - b)) % len) % len = x % len := by
  have hback : b + x + (len - b) = x + len := by omega
  have hforth : b + (x + (len - b)) = x + len := by omega
  rw [Nat.mod_add_mod, Nat.add_mod_mod, hback, hforth, Nat.add_mod_right]
  exact ⟨rfl, rfl⟩

/-- `Ring.inWindow` finds the start of the run again from the cursor and the bytes done. -/
theorem Ring.inWindow_advance {r : Ring} {start : Word} (hstart : inRegion r start) (done total : Nat)
    (a : Word) :
    r.inWindow (r.advance start done) done total a = true ↔
      inRegion r a ∧ (a.toNat - r.addr.toNat + (r.endAddr.toNat - r.addr.toNat - (start.toNat - r.addr.toNat)))
        % (r.endAddr.toNat - r.addr.toNat) < total := by
  obtain ⟨hlow, hhigh⟩ := hstart
  have hlen : r.addr.toNat < r.endAddr.toNat := by omega
  have hdone := Nat.mod_lt done (show 0 < r.endAddr.toNat - r.addr.toNat by omega)
  have hback : ((start.toNat - r.addr.toNat + done) % (r.endAddr.toNat - r.addr.toNat) +
      (r.endAddr.toNat - r.addr.toNat - done % (r.endAddr.toNat - r.addr.toNat)))
        % (r.endAddr.toNat - r.addr.toNat) = start.toNat - r.addr.toNat := by
    rw [Nat.add_comm (start.toNat - _), ← Nat.mod_add_mod done, (add_mod_add_sub_mod hdone.le _).1]
    exact Nat.mod_eq_of_lt (by omega)
  simp only [Ring.inWindow, Ring.toNat_advance hlen, Nat.add_sub_cancel_left, hback, inRegion,
    Bool.and_eq_true, decide_eq_true_eq, BitVec.le_def, BitVec.lt_def]

/-- Membership in a run of bytes with wrap, by the distance from its start. -/
theorem Ring.exists_advance_iff {r : Ring} {start : Word} (hstart : inRegion r start) (total : Nat)
    (a : Word) :
    (∃ j < total, a = r.advance start j) ↔
      inRegion r a ∧ (a.toNat - r.addr.toNat + (r.endAddr.toNat - r.addr.toNat - (start.toNat - r.addr.toNat)))
        % (r.endAddr.toNat - r.addr.toNat) < total := by
  obtain ⟨hlow, hhigh⟩ := hstart
  have hlen : r.addr.toNat < r.endAddr.toNat := by omega
  have hoffset : start.toNat - r.addr.toNat ≤ r.endAddr.toNat - r.addr.toNat := by omega
  constructor
  · rintro ⟨j, hj, rfl⟩
    refine ⟨Ring.advance_mem hlen start j, ?_⟩
    rw [Ring.toNat_advance hlen, Nat.add_sub_cancel_left, (add_mod_add_sub_mod hoffset j).1]
    exact (Nat.mod_le _ _).trans_lt hj
  · rintro ⟨⟨halow, hahigh⟩, hdist⟩
    refine ⟨_, hdist, BitVec.eq_of_toNat_eq ?_⟩
    rw [Ring.toNat_advance hlen, (add_mod_add_sub_mod hoffset _).2, Nat.mod_eq_of_lt (by omega)]
    omega

/-- The law of `Ring.inWindow` (20_memory.md R73). -/
theorem Ring.inWindow_advance_iff {r : Ring} {start : Word} (hstart : inRegion r start)
    (done total : Nat) (a : Word) :
    r.inWindow (r.advance start done) done total a = true ↔ ∃ j < total, a = r.advance start j :=
  (Ring.inWindow_advance hstart done total a).trans (Ring.exists_advance_iff hstart total a).symm

/-- Every cursor of a region has gone any number of bytes from some start in it. -/
theorem Ring.exists_start {r : Ring} {cur : Word} (hcur : inRegion r cur) (done : Nat) :
    ∃ start, inRegion r start ∧ cur = r.advance start done := by
  obtain ⟨hlow, hhigh⟩ := hcur
  have hlen : r.addr.toNat < r.endAddr.toNat := by omega
  have hdone := Nat.mod_lt done (show 0 < r.endAddr.toNat - r.addr.toNat by omega)
  refine ⟨r.advance cur (r.endAddr.toNat - r.addr.toNat - done % (r.endAddr.toNat - r.addr.toNat)),
    Ring.advance_mem hlen _ _, ?_⟩
  rw [Ring.advance_advance hlen]
  refine (Ring.advance_zero hlow hhigh).symm.trans ((Ring.advance_eq_advance_iff hlen cur _ _).2 ?_)
  rw [Nat.ModEq, ← Nat.add_mod_mod, Nat.sub_add_cancel hdone.le, Nat.mod_self, Nat.zero_mod]

/-- A cursor that advances with the count of bytes done leaves the run where it is. -/
theorem Ring.inWindow_add {r : Ring} {cur : Word} (hcur : inRegion r cur) (done n total : Nat) (a : Word) :
    r.inWindow (r.advance cur n) (done + n) total a = r.inWindow cur done total a := by
  obtain ⟨start, hstart, rfl⟩ := Ring.exists_start hcur done
  obtain ⟨hlow, hhigh⟩ := hstart
  rw [Ring.advance_advance (by omega), Bool.eq_iff_iff, Ring.inWindow_advance_iff ⟨hlow, hhigh⟩,
    Ring.inWindow_advance_iff ⟨hlow, hhigh⟩]

/-! ### Stores from a ring position on -/

/-- Byte `j` of a stored run no longer than the region. -/
theorem Memory.byte_storeWindow_of_le {r : Ring} (hlen : r.addr.toNat < r.endAddr.toNat) (m : Memory)
    {pos : Word} {bs : List Byte} (hpos : inRegion r pos)
    (hfit : bs.length ≤ r.endAddr.toNat - r.addr.toNat) {j : Nat} (hj : j < bs.length) :
    (m.storeWindow r pos bs).byte (r.advance pos j) = bs[j] :=
  Memory.byte_storeWindow hlen m pos bs hpos.1 hpos.2 j hj fun _ hjk hk =>
    Ring.advance_ne hlen pos hjk (hk.trans_le hfit)

/-- A stored run is read back. -/
theorem Memory.window_storeWindow {r : Ring} (hlen : r.addr.toNat < r.endAddr.toNat) (m : Memory)
    {pos : Word} {bs : List Byte} (hpos : inRegion r pos)
    (hfit : bs.length ≤ r.endAddr.toNat - r.addr.toNat) :
    (m.storeWindow r pos bs).window r pos bs.length = bs := by
  refine List.ext_getElem (Memory.window_length _ _ _ _) fun j _ hj => ?_
  simpa [Memory.window] using Memory.byte_storeWindow_of_le hlen m hpos hfit hj

/-- A run of bytes reads as before when a run after it is stored, both in one lap. -/
theorem Memory.window_storeWindow_before {r : Ring} (hlen : r.addr.toNat < r.endAddr.toNat) (m : Memory)
    (start : Word) {bs : List Byte} {i n k : Nat} (hbefore : i + n ≤ k)
    (hfit : k + bs.length ≤ r.endAddr.toNat - r.addr.toNat) :
    (m.storeWindow r (r.advance start k) bs).window r (r.advance start i) n =
      m.window r (r.advance start i) n := by
  obtain ⟨hlow, hhigh⟩ := Ring.advance_mem hlen start k
  refine List.map_congr_left fun j hj => Memory.byte_storeWindow_ne hlen _ _ _ _ hlow hhigh fun l hl => ?_
  have hjn : j < n := List.mem_range.1 hj
  rw [Ring.advance_advance hlen, Ring.advance_advance hlen]
  exact Ring.advance_ne hlen start (by omega) (by omega)

/-! ### Containers -/

theorem leBytes_getElem {n j : Nat} (c : Nat) (hj : j < (leBytes n c).length) :
    (leBytes n c)[j] = BitVec.ofNat 8 (c / 256 ^ j) := by
  induction n generalizing c j with
  | zero => simp [leBytes] at hj
  | succ n ih =>
    cases j with
    | zero => simp [leBytes]
    | succ j => simp [leBytes, ih, Nat.div_div_eq_div_mul, Nat.pow_succ']

/-- The bytes of a container spell its low `n` bytes (20_memory.md R61). -/
theorem leValue_leBytes (n c : Nat) : leValue (leBytes n c) = c % 256 ^ n := by
  induction n generalizing c with
  | zero => simp [leBytes, leValue, Nat.mod_one]
  | succ n ih => simp [leBytes, leValue, ih, Nat.pow_succ', Nat.mod_mul]

theorem intCast_enc (n : Nat) (x : Int) : (enc n x : Int) = x % 2 ^ n :=
  Int.toNat_of_nonneg (Int.emod_nonneg _ (by positivity))

theorem enc_lt (n : Nat) (x : Int) : enc n x < 2 ^ n := by
  zify
  rw [intCast_enc]
  exact Int.emod_lt_of_pos x (by positivity)

/-- The low bits of a pattern are the narrower pattern. -/
theorem enc_mod {n k : Nat} (h : n ≤ k) (x : Int) : enc k x % 2 ^ n = enc n x := by
  zify
  rw [intCast_enc, intCast_enc, Int.emod_emod_of_dvd _ (pow_dvd_pow 2 h)]

/-- A value in range comes back from its pattern (00_scope.md R9). -/
theorem sext_enc {n : Nat} (hn : 0 < n) {x : Int} (hlow : -2 ^ (n - 1) ≤ x) (hhigh : x ≤ 2 ^ (n - 1) - 1) :
    sext n (enc n x) = x := by
  have hhalf := two_pow_eq_two_mul_half hn
  have hlt : enc n x < 2 ^ (n - 1) ↔ x % 2 ^ n < 2 ^ (n - 1) := by zify; rw [intCast_enc]
  simp only [sext, hlt, intCast_enc]
  rcases lt_or_ge x 0 with hneg | hpos
  · have hmod : x % 2 ^ n = x + 2 ^ n := by
      rw [← Int.add_emod_right, Int.emod_eq_of_lt (by omega) (by omega)]
    rw [hmod, if_neg (by omega)]
    omega
  · rw [Int.emod_eq_of_lt hpos (by omega), if_pos (by omega)]

/-- A pattern as wide as a register is the register's two's-complement value. -/
theorem toInt_enc {n : Nat} (hn : 0 < n) {x : Int} (hlow : -2 ^ (n - 1) ≤ x) (hhigh : x ≤ 2 ^ (n - 1) - 1) :
    (BitVec.ofNat n (enc n x)).toInt = x :=
  calc (BitVec.ofNat n (enc n x)).toInt = (x % (2 ^ n : Nat)).bmod (2 ^ n) := by
        rw [BitVec.toInt_ofNat', intCast_enc, Nat.cast_pow, Nat.cast_ofNat]
    _ = (BitVec.ofInt n x).toInt := by rw [Int.emod_bmod, BitVec.toInt_ofInt]
    _ = x := BitVec.toInt_ofInt_eq_self hn hlow (by omega)

theorem containerOf_lt (f : SampleFormat) (v : Int) : containerOf f v < 256 ^ containerBytes f :=
  (enc_lt _ v).trans_eq (pow_mul 2 8 _)

theorem sampleWidth_le (f : SampleFormat) : sampleWidth f ≤ 8 * containerBytes f := by
  cases f <;> decide

theorem sampleWidth_pos (f : SampleFormat) : 0 < sampleWidth f := by cases f <;> decide

/-- A container stored inside its region is read back (20_memory.md R62, R64, R65). -/
theorem containerAt_storeWindow {r : Ring} (hlen : r.addr.toNat < r.endAddr.toNat) (m : Memory)
    {pos : Word} (hpos : inRegion r pos) (f : SampleFormat) (v : Int)
    (hfit : containerBytes f ≤ r.endAddr.toNat - r.addr.toNat) :
    containerAt (m.storeWindow r pos (leBytes (containerBytes f) (containerOf f v))) r pos (containerBytes f) =
      containerOf f v := by
  have hback := Memory.window_storeWindow hlen m (bs := leBytes (containerBytes f) (containerOf f v)) hpos
    (by rwa [leBytes_length])
  rw [leBytes_length] at hback
  calc _ = leValue (leBytes (containerBytes f) (containerOf f v)) := congrArg leValue hback
    _ = containerOf f v := by rw [leValue_leBytes, Nat.mod_eq_of_lt (containerOf_lt f v)]

/-! ### The cursor commands -/

/-- RBADVR and RBADVW of a valid ring (40_ring_buffer.md R122, R123). -/
theorem exec_rbadv_of_valid {s : State} {a : BitVec 8} {x : RingSel} (h : s.port = .cmd)
    (ha : ringSel a = some x) (hv : (s.ring x).valid = true) (n : Word) :
    exec (.rbadvr a n) s = .next (answered .cmd (responseWord .ok 0)
      (s.setRing x { s.ring x with rptr := (s.ring x).advance (s.ring x).rptr n.toNat })) ∧
    exec (.rbadvw a n) s = .next (answered .cmd (responseWord .ok 0)
      (s.setRing x { s.ring x with wptr := (s.ring x).advance (s.ring x).wptr n.toNat })) := by
  have hanswer (r : Ring) : answered .cmd (responseWord .ok 0) (s.setRing x r) =
      (s.setRing x r).respond .ok 0 := by
    rw [State.respond_eq_answered, State.setRing_port, h]
  simp only [exec, execRbadvr, execRbadvw, State.onCmd_of_cmd h, State.advanceCursor, ha, hv, hanswer,
    Bool.true_eq_false, if_false, State.done, Ring.set, Ring.get, and_self]

/-- RBADVR and RBADVW with a selector that names no ring (30_encoding.md R94). -/
theorem exec_rbadv_of_badArg {s : State} {a : BitVec 8} (h : s.port = .cmd) (ha : ringSel a = none)
    (n : Word) :
    exec (.rbadvr a n) s = .next (answered .cmd (responseWord .badArg 0) s) ∧
      exec (.rbadvw a n) s = .next (answered .cmd (responseWord .badArg 0) s) := by
  rw [← h, ← State.respond_eq_answered]
  simp only [exec, execRbadvr, execRbadvw, State.onCmd_of_cmd h, State.advanceCursor, ha, State.raise,
    and_self]

/-! ### A step of a routine on valid rings -/

/-- The memory after the sample step of a channel: the converted container stored from the write cursor
on (42_datapath.md R160, R169). -/
def State.sampleMem (s : State) (src snk : SampleFormat) (ch : Fin hw.maxCh) : Memory :=
  s.mem.storeWindow s.ringSnk s.ringSnk.wptr
    (leBytes (containerBytes snk)
      (containerOf snk
        (conv hw src snk (containerAt s.mem s.ringSrc s.ringSrc.rptr (containerBytes src)) s.act[ch].toNat)))

/-- A step of a routine on valid rings, with the counters channel first (44_dispatch_facade.md R215). -/
theorem exec_routine_of_valid (src snk : SampleFormat) {s : State} {ch : Fin hw.maxCh}
    (hch : channelIndex s.chIdx = some ch) (hsrc : s.ringSrc.valid = true) (hsnk : s.ringSnk.valid = true) :
    exec (src.routine snk) s = .next
      { s with
        mem := s.sampleMem src snk ch
        ringSrc := { s.ringSrc with rptr := s.ringSrc.advance s.ringSrc.rptr (containerBytes src) }
        ringSnk := { s.ringSnk with wptr := s.ringSnk.advance s.ringSnk.wptr (containerBytes snk) }
        chIdx := if s.chIdx.toNat + 1 < s.channels.toNat then s.chIdx + 1 else 0
        frameIdx := if s.chIdx.toNat + 1 < s.channels.toNat then s.frameIdx else s.frameIdx + 1 } := by
  rw [exec_routine, State.routineStep_next_iff]
  refine ⟨ch, hch, ?_⟩
  rw [State.sampleStep_eq hw src snk ch hsrc hsnk]
  simp only [State.nextSample]
  split <;> rfl

/-! ### The routine of a period -/

/-- The key of a format pair selects the pair's routine and no other does (30_encoding.md R99,
44_dispatch_facade.md R213). -/
theorem decode_key_eq_routine_iff (k : BitVec 4) (src snk : SampleFormat) :
    decode (.key k) = some (src.routine snk) ↔ k.toNat = 3 * formatCode src + formatCode snk := by
  revert k
  cases src <;> cases snk <;> decide

theorem formatCode_le (f : SampleFormat) : formatCode f ≤ 2 := by cases f <;> decide

/-- While a period runs `ROUTINE` selects the routine of the formats the registers hold (10_state.md R26). -/
theorem decode_routine_iff_of_busy {s : State} (hinv : Invariant s) (hbusy : s.busy = true)
    (src snk : SampleFormat) :
    decode (.key s.routine) = some (src.routine snk) ↔ srcFormat s = some src ∧ sinkFormat s = some snk := by
  have hkey := hinv.routineIs (hinv.busyResolved hbusy)
  have hsrcFmt := hinv.srcFmtNamed
  have hsnkFmt := hinv.sinkFmtNamed
  have hsrc := formatCode_le src
  have hsnk := formatCode_le snk
  rw [decode_key_eq_routine_iff, srcFormat, sinkFormat, formatOf_eq_some, formatOf_eq_some]
  omega

theorem heldBytes_of_format {c : BitVec 2} {f : SampleFormat} (h : formatOf c.toNat = some f) :
    heldBytes c = containerBytes f := by simp only [heldBytes, h, Option.map_some, Option.getD_some]

/-- The acceptance of PROCESS (44_dispatch_facade.md R214). -/
def State.startPeriod (s : State) (f : Word) : State :=
  { s with act := s.scaled, frames := f, frameIdx := 0, chIdx := 0, busy := true }

theorem exec_process_of_ready {s : State} (hp : s.port = .cmd) (hr : s.resolved = true)
    (hsrc : s.ringSrc.valid = true) (hsnk : s.ringSnk.valid = true) (f : Word) :
    exec (.process f) s = .next (s.startPeriod f) :=
  (State.onCmd_of_cmd hp _).trans ((if_neg (by simp [hr])).trans (if_neg (by simp [hsrc, hsnk])))

@[simp] theorem State.startPeriod_samplesDone (s : State) (f : Word) : (s.startPeriod f).samplesDone = 0 := by
  simp [State.samplesDone, State.startPeriod]

/-! ### The windows of a period -/

/-- The windows of a period in flight that starts: the run from each cursor on (20_memory.md R73). -/
theorem State.inSourceWindow_of_start {s : State} {src : SampleFormat} (hbusy : s.busy = true)
    (hdone : s.samplesDone = 0) (hvalid : s.ringSrc.valid = true) (hfmt : srcFormat s = some src) (a : Word) :
    s.inSourceWindow a = true ↔
      ∃ j < s.samplesTotal * containerBytes src, a = s.ringSrc.advance s.ringSrc.rptr j := by
  obtain ⟨-, hlow, hhigh, -⟩ := (Ring.valid_iff _).1 hvalid
  have hlaw := Ring.inWindow_advance_iff ⟨hlow, hhigh⟩ 0 (s.samplesTotal * containerBytes src) a
  rw [Ring.advance_zero hlow hhigh] at hlaw
  rw [State.inSourceWindow, hbusy, hdone, heldBytes_of_format hfmt, Nat.zero_mul, Bool.true_and, hlaw]

theorem State.inSinkWindow_of_start {s : State} {snk : SampleFormat} (hbusy : s.busy = true)
    (hdone : s.samplesDone = 0) (hvalid : s.ringSnk.valid = true) (hfmt : sinkFormat s = some snk) (a : Word) :
    s.inSinkWindow a = true ↔
      ∃ j < s.samplesTotal * containerBytes snk, a = s.ringSnk.advance s.ringSnk.wptr j := by
  obtain ⟨-, -, -, hlow, hhigh⟩ := (Ring.valid_iff _).1 hvalid
  have hlaw := Ring.inWindow_advance_iff ⟨hlow, hhigh⟩ 0 (s.samplesTotal * containerBytes snk) a
  rw [Ring.advance_zero hlow hhigh] at hlaw
  rw [State.inSinkWindow, hbusy, hdone, heldBytes_of_format hfmt, Nat.zero_mul, Bool.true_and, hlaw]

/-- A response leaves the windows as they are. -/
theorem State.windows_respond (s : State) (c : ResultCode) (d : Word) (a : Word) :
    (s.respond c d).inSourceWindow a = s.inSourceWindow a ∧
      (s.respond c d).inSinkWindow a = s.inSinkWindow a := by
  simp [State.inSourceWindow, State.inSinkWindow, State.samplesDone, State.samplesTotal]

/-- The acceptance of a CFG word leaves the windows as they are. -/
theorem State.windows_accept_cfg {w : Packet} {s t : State} (h : State.accept .cfg w s = .next t) (a : Word) :
    t.inSourceWindow a = s.inSourceWindow a ∧ t.inSinkWindow a = s.inSinkWindow a := by
  obtain ⟨-, rfl⟩ | ⟨i, -, he⟩ := State.accept_cases h
  · exact State.windows_respond _ _ _ a
  · cases he with
    | failed => exact State.windows_respond _ _ _ a
    | configure => exact State.windows_respond _ _ _ a
    | read _ hp | strmcfg _ _ hp | strmfree _ hp | negotiate _ _ _ hp | process _ _ hp
    | rbset _ _ _ _ _ _ hp | advance _ _ _ _ _ hp => cases hp

/-- While samples are left the counters' advance counts one. -/
theorem State.samplesDone_nextSample {s : State} (hch : s.chIdx.toNat < s.channels.toNat)
    (hf : s.frameIdx.toNat < s.frames.toNat) : s.nextSample.samplesDone = s.samplesDone + 1 := by
  by_cases hc : s.chIdx.toNat + 1 < s.channels.toNat
  · have hnext : (s.chIdx + 1).toNat = s.chIdx.toNat + 1 := by
      rw [BitVec.toNat_add_of_not_uaddOverflow] <;> simp [BitVec.uaddOverflow]; omega
    rw [State.nextSample_of_lt hc]
    simp only [State.samplesDone, hnext, Nat.add_assoc]
  · have hnext : (s.frameIdx + 1).toNat = s.frameIdx.toNat + 1 := by
      rw [BitVec.toNat_add_of_not_uaddOverflow] <;> simp [BitVec.uaddOverflow]; omega
    rw [State.nextSample_of_ge hc]
    show (s.frameIdx + 1).toNat * s.channels.toNat + 0 = _
    rw [hnext, Nat.succ_mul, State.samplesDone]
    omega

/-- A sample step of a period moves each cursor by as many bytes as it counts, so the windows stay. -/
theorem State.windows_sampleStep {s : State} {src snk : SampleFormat} (hinv : Invariant s)
    (hbusy : s.busy = true) (hf : s.frameIdx.toNat < s.frames.toNat) (hc : s.channels ≠ 0)
    (hsrc : srcFormat s = some src) (hsnk : sinkFormat s = some snk) (ch : Fin hw.maxCh) (a : Word) :
    (State.sampleStep hw src snk ch s).nextSample.inSourceWindow a = s.inSourceWindow a ∧
      (State.sampleStep hw src snk ch s).nextSample.inSinkWindow a = s.inSinkWindow a := by
  obtain ⟨-, hrlow, hrhigh, -⟩ := (Ring.valid_iff _).1 (hinv.busySrcValid hbusy)
  obtain ⟨-, -, -, hwlow, hwhigh⟩ := (Ring.valid_iff _).1 (hinv.busySnkValid hbusy)
  have hcount : (State.sampleStep hw src snk ch s).nextSample.samplesDone = s.samplesDone + 1 := by
    obtain ⟨m, v, w, he⟩ := State.sampleStep_frame hw src snk ch s
    rw [he]
    exact State.samplesDone_nextSample (hinv.busyChannel hbusy fun h => hc (BitVec.eq_of_toNat_eq h)) hf
  rw [State.sampleStep_eq hw src snk ch (hinv.busySrcValid hbusy) (hinv.busySnkValid hbusy)] at hcount ⊢
  have hsrcFmt : heldBytes s.srcFmt = containerBytes src := heldBytes_of_format hsrc
  have hsnkFmt : heldBytes s.sinkFmt = containerBytes snk := heldBytes_of_format hsnk
  simp only [State.inSourceWindow, State.inSinkWindow, hcount, State.samplesTotal, State.nextSample_busy,
    State.nextSample_frames, State.nextSample_channels, State.nextSample_srcFmt, State.nextSample_sinkFmt,
    State.nextSample_ringSrc, State.nextSample_ringSnk, hsrcFmt, hsnkFmt, Nat.succ_mul]
  exact ⟨congrArg _ (Ring.inWindow_add (r := s.ringSrc) ⟨hrlow, hrhigh⟩ _ _ _ a),
    congrArg _ (Ring.inWindow_add (r := s.ringSnk) ⟨hwlow, hwhigh⟩ _ _ _ a)⟩

/-! ### The run of a period -/

/-- Where a run of bytes goes does not depend on the ring's cursors. -/
theorem Memory.storeWindow_with_wptr (m : Memory) (r : Ring) (v pos : Word) (bs : List Byte) :
    m.storeWindow { r with wptr := v } pos bs = m.storeWindow r pos bs := by
  induction bs generalizing m pos with
  | nil => rfl
  | cons b bs ih => exact ih _ _

/-- `s`, in which a period starts, when `k` samples of the period are done and the memory is `m`. -/
def State.afterSamples (s : State) (src snk : SampleFormat) (k : Nat) (m : Memory) : State :=
  { s with
    mem := m
    ringSrc := { s.ringSrc with rptr := s.ringSrc.advance s.ringSrc.rptr (k * containerBytes src) }
    ringSnk := { s.ringSnk with wptr := s.ringSnk.advance s.ringSnk.wptr (k * containerBytes snk) }
    frameIdx := BitVec.ofNat 32 (k / s.channels.toNat)
    chIdx := BitVec.ofNat 8 (k % s.channels.toNat) }

/-- What the memory holds when `k` samples of the period that starts in `s` are done. -/
structure PeriodMemory (s : State) (src snk : SampleFormat) (k : Nat) (m : Memory) : Prop where
  /-- Nothing is stored outside the places of the `k` containers. -/
  outside : ∀ a, (∀ j < k * containerBytes snk, a ≠ s.ringSnk.advance s.ringSnk.wptr j) →
    m.byte a = s.mem.byte a
  /-- With disjoint regions and no lap of the sink, the containers stored are the conversions. -/
  output : (∀ a, ¬(inRegion s.ringSrc a ∧ inRegion s.ringSnk a)) →
    k * containerBytes snk ≤ s.ringSnk.endAddr.toNat - s.ringSnk.addr.toNat →
    ∀ (i : Nat) (ch : Fin hw.maxCh), ch.val < s.channels.toNat → i * s.channels.toNat + ch.val < k →
      containerAt m s.ringSnk
          (s.ringSnk.advance s.ringSnk.wptr ((i * s.channels.toNat + ch.val) * containerBytes snk))
          (containerBytes snk) =
        containerOf snk (conv hw src snk
          (containerAt s.mem s.ringSrc
            (s.ringSrc.advance s.ringSrc.rptr ((i * s.channels.toNat + ch.val) * containerBytes src))
            (containerBytes src))
          s.act[ch].toNat)

/-- The frame and the channel of a sample's number. -/
theorem div_mod_of_frame {c i ch : Nat} (h : ch < c) : (i * c + ch) / c = i ∧ (i * c + ch) % c = ch :=
  (Nat.div_mod_unique (Nat.zero_lt_of_lt h)).2 ⟨by ring, h⟩

section
variable {s : State} {src snk : SampleFormat}

theorem State.afterSamples_zero (hframe : s.frameIdx = 0) (hch : s.chIdx = 0)
    (hsrc : s.ringSrc.valid = true) (hsnk : s.ringSnk.valid = true) : s.afterSamples src snk 0 s.mem = s := by
  obtain ⟨-, hrlow, hrhigh, -⟩ := (Ring.valid_iff _).1 hsrc
  obtain ⟨-, -, -, hwlow, hwhigh⟩ := (Ring.valid_iff _).1 hsnk
  have hframe' : BitVec.ofNat 32 0 = s.frameIdx := hframe.symm
  have hch' : BitVec.ofNat 8 0 = s.chIdx := hch.symm
  simp only [State.afterSamples, Nat.zero_mul, Ring.advance_zero hrlow hrhigh, Ring.advance_zero hwlow hwhigh,
    Nat.zero_div, Nat.zero_mod, hframe', hch']

/-- The memory after the sample that is due, with the rings as the period found them. -/
theorem State.sampleMem_afterSamples (k : Nat) (m : Memory) (ch : Fin hw.maxCh) :
    (s.afterSamples src snk k m).sampleMem src snk ch =
      m.storeWindow s.ringSnk (s.ringSnk.advance s.ringSnk.wptr (k * containerBytes snk))
        (leBytes (containerBytes snk)
          (containerOf snk
            (conv hw src snk
              (containerAt m s.ringSrc (s.ringSrc.advance s.ringSrc.rptr (k * containerBytes src))
                (containerBytes src))
              s.act[ch].toNat))) :=
  Memory.storeWindow_with_wptr _ _ _ _ _

/-- The counters name the frame and the channel of the sample that is due. -/
theorem State.afterSamples_counters {i ch : Nat} (hi : i < s.frames.toNat) (hch : ch < s.channels.toNat)
    (m : Memory) :
    (s.afterSamples src snk (i * s.channels.toNat + ch) m).frameIdx.toNat = i ∧
      (s.afterSamples src snk (i * s.channels.toNat + ch) m).chIdx.toNat = ch := by
  have hframes := s.frames.isLt
  have hchannels := s.channels.isLt
  simp only [State.afterSamples, div_mod_of_frame hch, BitVec.toNat_ofNat]
  omega

/-- The counters' advance, channel first, is that of the count of samples (44_dispatch_facade.md R215). -/
theorem counters_succ {c i ch : Nat} (hch : ch < c) :
    BitVec.ofNat 8 ((i * c + ch + 1) % c) = (if ch + 1 < c then BitVec.ofNat 8 ch + 1 else 0) ∧
      BitVec.ofNat 32 ((i * c + ch + 1) / c) =
        (if ch + 1 < c then BitVec.ofNat 32 i else BitVec.ofNat 32 i + 1) := by
  by_cases hlast : ch + 1 < c
  · simp [Nat.add_assoc, div_mod_of_frame hlast, hlast, BitVec.ofNat_add]
  · have hframe : i * c + ch + 1 = (i + 1) * c + 0 := by rw [Nat.succ_mul]; omega
    simp only [hframe, div_mod_of_frame (Nat.zero_lt_of_lt hch), hlast, if_false, BitVec.ofNat_add]
    exact ⟨rfl, rfl⟩

/-- With no turn listed a step during a period is the engine's. -/
theorem step_eq_engineStep (hbusy : s.busy = true) (hturns : s.turns = []) : step s = s.engineStep := by
  rw [step_of_busy (.inr ⟨hturns, rfl⟩) hbusy, ← hturns]

/-- The engine's step while sample `(i, ch)` is due. -/
theorem step_afterSamples (hinv : Invariant s) (hbusy : s.busy = true) (hturns : s.turns = [])
    (hsrc : srcFormat s = some src) (hsnk : sinkFormat s = some snk) {i : Nat} {ch : Fin hw.maxCh}
    (hi : i < s.frames.toNat) (hch : ch.val < s.channels.toNat) (m : Memory) :
    step (s.afterSamples src snk (i * s.channels.toNat + ch.val) m) =
      .next (s.afterSamples src snk (i * s.channels.toNat + ch.val + 1)
        ((s.afterSamples src snk (i * s.channels.toNat + ch.val) m).sampleMem src snk ch)) := by
  obtain ⟨hlenSrc, -⟩ := (Ring.valid_iff _).1 (hinv.busySrcValid hbusy)
  obtain ⟨hlenSnk, -⟩ := (Ring.valid_iff _).1 (hinv.busySnkValid hbusy)
  obtain ⟨hframe, hchan⟩ := s.afterSamples_counters (src := src) (snk := snk) hi hch m
  have hc : s.channels ≠ 0 := fun h => by simp [h] at hch
  have hindex : channelIndex (s.afterSamples src snk (i * s.channels.toNat + ch.val) m).chIdx = some ch := by
    rw [channelIndex_of_lt (by rw [hchan]; exact ch.isLt)]
    exact congrArg some (Fin.ext hchan)
  have hdue := (State.engineStep_of_due (s := s.afterSamples src snk (i * s.channels.toNat + ch.val) m) hc
    (by rw [hframe]; exact hi)).1 _ ((decode_routine_iff_of_busy hinv hbusy src snk).2 ⟨hsrc, hsnk⟩)
  rw [step_eq_engineStep (s := s.afterSamples _ _ _ _) hbusy hturns, hdue, exec_routine_of_valid src snk hindex
    (Ring.valid_advance_rptr (hinv.busySrcValid hbusy) _ _)
    (Ring.valid_advance_wptr (hinv.busySnkValid hbusy) _ _), hchan]
  obtain ⟨hnextCh, hnextFrame⟩ := counters_succ (i := i) hch
  simp only [State.afterSamples, hnextCh, hnextFrame, div_mod_of_frame hch, Ring.advance_with_rptr,
    Ring.advance_with_wptr, Ring.advance_advance hlenSrc, Ring.advance_advance hlenSnk, Nat.succ_mul]

/-- The engine's step when every sample is done (44_dispatch_facade.md R216). -/
theorem step_afterSamples_done (hbusy : s.busy = true) (hturns : s.turns = []) (m : Memory) :
    step (s.afterSamples src snk s.samplesTotal m) =
      .next (s.afterSamples src snk s.samplesTotal m).completePeriod := by
  rw [step_eq_engineStep (s := s.afterSamples _ _ _ _) hbusy hturns]
  refine State.engineStep_of_done ?_
  by_cases hc : s.channels = 0
  · exact .inr hc
  · have hpos : 0 < s.channels.toNat := Nat.pos_of_ne_zero fun h => hc (BitVec.eq_of_toNat_eq h)
    left
    show BitVec.ofNat 32 (s.frames.toNat * s.channels.toNat / s.channels.toNat) = s.frames
    rw [Nat.mul_div_cancel _ hpos, BitVec.ofNat_toNat, BitVec.setWidth_eq]

theorem PeriodMemory.zero : PeriodMemory s src snk 0 s.mem :=
  ⟨fun _ _ => rfl, fun _ _ _ _ _ h => absurd h (Nat.not_lt_zero _)⟩

/-- The source containers are as the period found them when no sink byte is in the source region. -/
theorem PeriodMemory.source_containerAt {k : Nat} {m : Memory} (h : PeriodMemory s src snk k m)
    (hsrc : s.ringSrc.valid = true) (hsnk : s.ringSnk.valid = true)
    (hdisjoint : ∀ a, ¬(inRegion s.ringSrc a ∧ inRegion s.ringSnk a)) (pos : Word) (n : Nat) :
    containerAt m s.ringSrc pos n = containerAt s.mem s.ringSrc pos n := by
  obtain ⟨hlenSrc, -⟩ := (Ring.valid_iff _).1 hsrc
  obtain ⟨hlenSnk, -⟩ := (Ring.valid_iff _).1 hsnk
  refine congrArg leValue (Memory.window_congr hlenSrc
    (fun a ha => h.outside a fun j _ he => hdisjoint a ⟨ha, ?_⟩) pos n)
  rw [he]
  exact Ring.advance_mem hlenSnk _ j

theorem PeriodMemory.succ (hsrc : s.ringSrc.valid = true) (hsnk : s.ringSnk.valid = true) {m : Memory}
    {i : Nat} {ch : Fin hw.maxCh} (hch : ch.val < s.channels.toNat)
    (h : PeriodMemory s src snk (i * s.channels.toNat + ch.val) m) :
    PeriodMemory s src snk (i * s.channels.toNat + ch.val + 1)
      ((s.afterSamples src snk (i * s.channels.toNat + ch.val) m).sampleMem src snk ch) := by
  obtain ⟨hlen, -⟩ := (Ring.valid_iff _).1 hsnk
  rw [State.sampleMem_afterSamples]
  refine ⟨fun a ha => ?_, fun hdisjoint hfit i' ch' hch' hlt => ?_⟩
  · obtain ⟨hlow, hhigh⟩ := Ring.advance_mem hlen s.ringSnk.wptr
      ((i * s.channels.toNat + ch.val) * containerBytes snk)
    rw [Nat.succ_mul] at ha
    refine (Memory.byte_storeWindow_ne hlen _ _ _ _ hlow hhigh fun j hj => ?_).trans
      (h.outside a fun j hj => ha j (by omega))
    rw [leBytes_length] at hj
    rw [Ring.advance_advance hlen]
    exact ha _ (by omega)
  · rw [Nat.succ_mul] at hfit
    obtain hbefore | hlast := Nat.lt_succ_iff_lt_or_eq.1 hlt
    · have hmul := Nat.mul_le_mul_right (containerBytes snk) hbefore
      rw [Nat.succ_mul] at hmul
      refine Eq.trans (congrArg leValue ?_) (h.output hdisjoint (by omega) i' ch' hch' hbefore)
      exact Memory.window_storeWindow_before hlen m _ hmul (by rwa [leBytes_length])
    · obtain ⟨hi, hch''⟩ := div_mod_of_frame (i := i) hch
      rw [← hlast, (div_mod_of_frame hch').1] at hi
      rw [← hlast, (div_mod_of_frame hch').2] at hch''
      obtain rfl := Fin.ext hch''
      subst hi
      rw [h.source_containerAt hsrc hsnk hdisjoint]
      exact containerAt_storeWindow hlen m (Ring.advance_mem hlen _ _) snk _ (by omega)

/-- A period as far as any sample of it. -/
theorem runs_afterSamples (hinv : Invariant s) (hbusy : s.busy = true) (hturns : s.turns = [])
    (hframe : s.frameIdx = 0) (hchan : s.chIdx = 0)
    (hsrc : srcFormat s = some src) (hsnk : sinkFormat s = some snk) {k : Nat} (hk : k ≤ s.samplesTotal) :
    ∃ m, PeriodMemory s src snk k m ∧ runs k s (s.afterSamples src snk k m) := by
  have hvsrc := hinv.busySrcValid hbusy
  have hvsnk := hinv.busySnkValid hbusy
  induction k with
  | zero => exact ⟨s.mem, .zero, (State.afterSamples_zero hframe hchan hvsrc hvsnk).symm⟩
  | succ k ih =>
    obtain ⟨m, hm, hruns⟩ := ih (by omega)
    have hpos : 0 < s.channels.toNat := Nat.pos_of_ne_zero fun h => by
      rw [State.samplesTotal, h] at hk; omega
    have hi : k / s.channels.toNat < s.frames.toNat := Nat.div_lt_of_lt_mul (by
      rwa [Nat.mul_comm])
    have hch : k % s.channels.toNat < s.channels.toNat := Nat.mod_lt _ hpos
    have hk' : k / s.channels.toNat * s.channels.toNat + k % s.channels.toNat = k := Nat.div_add_mod' _ _
    have hstep := step_afterSamples hinv hbusy hturns hsrc hsnk
      (ch := ⟨_, hch.trans_le hinv.channelsBound⟩) hi hch m
    have hnext := PeriodMemory.succ (i := k / s.channels.toNat) (ch := ⟨_, hch.trans_le hinv.channelsBound⟩)
      hvsrc hvsnk hch (hk'.symm ▸ hm)
    simp only [hk'] at hstep hnext
    exact ⟨_, hnext, runs_add hruns (runs_one hstep)⟩

/-- An accepted PROCESS runs to its completion (44_dispatch_facade.md R214 to R216). -/
theorem runs_process {w : Packet} {rest : List Packet} {f : Word} (hinv : Invariant s) (hturns : s.turns = [])
    (hidle : s.busy = false) (hheld : s.cmdHeld = w :: rest) (hw : decode (.word w) = some (.process f))
    (hr : s.resolved = true) (hvsrc : s.ringSrc.valid = true) (hvsnk : s.ringSnk.valid = true)
    (hsrc : srcFormat s = some src) (hsnk : sinkFormat s = some snk) :
    let s₀ := ({ s with cmdHeld := rest, port := .cmd } : State).startPeriod f
    ∃ m, PeriodMemory s₀ src snk (f.toNat * s.channels.toNat) m ∧
      runs (f.toNat * s.channels.toNat + 2) s
        (s₀.afterSamples src snk (f.toNat * s.channels.toNat) m).completePeriod := by
  intro s₀
  have hinv₀ : Invariant s₀ :=
    ({ hinv with } : Invariant { s with cmdHeld := rest, port := .cmd }).process f hr hvsrc hvsnk
  obtain ⟨m, hm, hruns⟩ := runs_afterSamples (src := src) (snk := snk) (k := s₀.samplesTotal)
    hinv₀ rfl hturns rfl rfl hsrc hsnk le_rfl
  have haccept : step s = .next s₀ := by
    rw [step_of_machineMoves (.inr ⟨hturns, rfl⟩), ← hturns, State.machineTurn_of_held hidle hheld,
      State.accept_of_decode hw]
    exact exec_process_of_ready (s := { s with cmdHeld := rest, port := .cmd }) rfl hr hvsrc hvsnk f
  exact ⟨m, hm, s₀, haccept, runs_add hruns (runs_one (step_afterSamples_done (s := s₀) rfl hturns m))⟩

end

end Sys2Proof.Machine

namespace Sys2Proof.Proofs

open Sys2Proof.Machine Sys2Proof.Safety

/-- Settles O40: the cases of the advance are congruences of the count modulo the length. -/
theorem cursorAdvance : Obligations.CursorAdvance := by
  intro r cur k hvalid ⟨hlow, hhigh⟩
  have hlen : r.addr.toNat < r.endAddr.toNat := by omega
  have hzero := Ring.advance_zero hlow hhigh
  refine ⟨?_, hzero, ?_, fun hlast => ?_, ?_, Ring.advance_mem hlen cur k,
    Ring.valid_advance_rptr hvalid cur k, Ring.valid_advance_wptr hvalid cur k⟩
  · rw [Ring.toNat_advance hlen]
    push_cast [hlow, hlen.le]
    rfl
  · exact ((Ring.advance_eq_advance_iff hlen cur _ 0).2 (by simp [Nat.ModEq])).trans hzero
  · apply BitVec.eq_of_toNat_eq
    have hlap : cur.toNat - r.addr.toNat + 1 = r.endAddr.toNat - r.addr.toNat := by omega
    rw [Ring.toNat_advance hlen, hlap, Nat.mod_self, Nat.add_zero]
  · exact (Ring.advance_eq_advance_iff hlen cur _ _).2 (Nat.mod_modEq _ _).symm

/-- Settles O41: `RbWrite` stores a run of bytes from the write cursor on. -/
theorem writeWraps : Obligations.WriteWraps := by
  intro s bs hvalid _ hfit
  obtain ⟨hlen, -, -, hlow, hhigh⟩ := (Ring.valid_iff _).1 hvalid
  have hplace (j : Nat) : BitVec.ofNat 32 (s.ringSnk.addr.toNat + (s.ringSnk.wptr.toNat - s.ringSnk.addr.toNat + j)
      % (s.ringSnk.endAddr.toNat - s.ringSnk.addr.toNat)) = s.ringSnk.advance s.ringSnk.wptr j := rfl
  simp only [hplace, State.rbWrite_eq bs hvalid]
  refine ⟨fun j hj => Memory.byte_storeWindow_of_le hlen _ ⟨hlow, hhigh⟩ hfit hj,
    fun a ha => Memory.byte_storeWindow_ne hlen _ _ _ _ hlow hhigh ha, trivial,
    fun j => Ring.advance_mem hlen _ j, fun hlast => ⟨Ring.advance_zero hlow hhigh, fun j hj hjlen => ?_⟩⟩
  have hlap : s.ringSnk.wptr.toNat - s.ringSnk.addr.toNat + j =
      j - 1 + (s.ringSnk.endAddr.toNat - s.ringSnk.addr.toNat) := by omega
  rw [Ring.toNat_advance hlen, hlap, Nat.add_mod_right, Nat.mod_eq_of_lt (by omega)]

/-- Settles O46. -/
theorem inWindowLaw : Obligations.InWindowLaw :=
  fun _ _ done total a _ hstart => Ring.inWindow_advance_iff hstart done total a

/-- Settles O38: the low bits of a container are the pattern of its sample. -/
theorem containerRoundTrip : Obligations.ContainerRoundTrip := by
  intro f v hlow hhigh
  refine ⟨?_, containerOf_lt f v, ?_, fun hf => ?_⟩
  · have hlowBits : containerOf f v % 2 ^ sampleWidth f = enc (sampleWidth f) v :=
      enc_mod (sampleWidth_le f) v
    rw [sampleOf, hlowBits, sext_enc (sampleWidth_pos f) hlow hhigh]
  · rw [valueOf, bytesOf, leValue_leBytes, Nat.mod_eq_of_lt (containerOf_lt f v)]
  · cases f with
    | s16 => exact absurd rfl hf
    | s24 =>
      simp only [sampleWidth] at hlow hhigh
      exact toInt_enc (n := 32) (by decide) (by omega) (by omega)
    | s32 => exact toInt_enc (n := 32) (by decide) hlow hhigh

/-- Settles O25: a selector names one ring or none. -/
theorem rbadvResult : Obligations.RbadvResult := by
  intro s n hport
  exact ⟨exec_rbadv_of_valid (x := .source) hport rfl (n := n), exec_rbadv_of_valid (x := .sink) hport rfl (n := n),
    (exec_rbadv_of_invalid (x := .source) hport rfl · n), (exec_rbadv_of_invalid (x := .sink) hport rfl · n),
    fun _ ha => exec_rbadv_of_badArg hport (ringSel_eq_none.2 ha) n⟩

/-- Settles O28: the sample step stores the container's bytes from the write cursor on. -/
theorem routineStepResult : Obligations.RoutineStepResult := by
  intro src snk s hc hsrc hsnk
  obtain ⟨hlen, -, -, hlow, hhigh⟩ := (Ring.valid_iff _).1 hsnk
  refine ⟨_, exec_routine_of_valid src snk (channelIndex_of_lt hc) hsrc hsnk, fun a ha => ?_,
    fun j hj hlast => ?_⟩
  · exact Memory.byte_storeWindow_ne hlen _ _ _ _ hlow hhigh (by simpa only [leBytes_length] using ha)
  · rw [← leBytes_getElem (n := containerBytes snk) _ (by rwa [leBytes_length])]
    exact Memory.byte_storeWindow hlen _ _ _ hlow hhigh j _ (by simpa only [leBytes_length] using hlast)

/-- Settles O47: of the turns that leave a period in flight only a sample step moves what the windows are
computed from. -/
theorem windowsOfPeriod : Obligations.WindowsOfPeriod := by
  refine ⟨fun s t f src snk _ hsrc hsnk hexec hbusy hidle a => ?_, fun s t hinv hbusy hstep hbusy' a => ?_,
    fun s hidle a => ⟨State.inSourceWindow_of_idle hidle a, State.inSinkWindow_of_idle hidle a⟩⟩
  · obtain ⟨u, hu, he⟩ := exec_command (i := .process f) (by rintro ⟨⟩ ⟨⟩ <;> simp [SampleFormat.routine]) s
    obtain rfl : u = t := Host.Outcome.next.inj (hu.symm.trans hexec)
    cases he with
    | process g hi _ _ hvsrc hvsnk =>
      obtain rfl := Instr.process.inj hi
      exact ⟨State.inSourceWindow_of_start rfl (s.startPeriod_samplesDone f) hvsrc hsrc a,
        State.inSinkWindow_of_start rfl (s.startPeriod_samplesDone f) hvsnk hsnk a⟩
    | _ => simp [hidle] at hbusy
  · cases step_effect hstep with
    | complete => simp at hbusy'
    | sample ts src snk ch _ _ hf hc hr =>
      obtain ⟨hsrc, hsnk⟩ := (decode_routine_iff_of_busy hinv hbusy src snk).1 hr
      have hturn : Invariant { s with turns := ts } := { hinv with }
      exact State.windows_sampleStep hturn hbusy hf hc hsrc hsnk ch a
    | quiet _ _ hidle => simp [hbusy] at hidle
    | accept _ _ _ _ _ hidle => simp [hbusy] at hidle
    | configure ts w _ _ ha => exact State.windows_accept_cfg ha a
    | reset => simp [State.reset] at hbusy'
    | present | peerWrite | peerRead => exact ⟨rfl, rfl⟩

/-- Settles O57: the memory at a period's completion holds every conversion. -/
theorem periodOutput : Obligations.PeriodOutput := by
  intro s w f src snk hinv hturns hidle hheld hw hr hvsrc hvsnk hsrc hsnk hdisjoint hfit
  obtain ⟨m, hmem, hruns⟩ := runs_process hinv hturns hidle hheld hw hr hvsrc hvsnk hsrc hsnk
  refine ⟨_, hruns, fun i ch hi hch => hmem.output hdisjoint hfit i ch hch ?_⟩
  calc i * s.channels.toNat + ch.val < (i + 1) * s.channels.toNat := by rw [Nat.succ_mul]; omega
    _ ≤ f.toNat * s.channels.toNat := Nat.mul_le_mul_right _ hi

end Sys2Proof.Proofs
end

section
/-! PROOFS. The statements about the encoding: the decoder against the encoder and the opcode map, the
port rules, and what GETGAIN and RBSET answer. First the rules the proofs cite, then the statements. -/

namespace Sys2Proof

open Sys2Proof.Laws

/-! ### The fields of a command word -/

/-- A word with `RSV` = 0 is its other fields packed (30_encoding.md R90). -/
theorem packWord_of_fields {w : Packet} (hrsv : Code.rsvOf w = 0) :
    packWord (Code.opOf w) (Code.aOf w) (Code.bOf w) (Code.immOf w) = w := by
  have hrsv' : (0#8 : BitVec 8) = Code.rsvOf w := hrsv.symm
  rw [packWord, hrsv']
  simp only [Code.opOf, Code.aOf, Code.bOf, Code.rsvOf, Code.immOf,
    BitVec.extractLsb'_append_extractLsb'_eq_extractLsb', BitVec.extractLsb'_eq_self]

theorem packWord_eq_iff {op a b : BitVec 8} {imm : Word} {w : Packet} :
    packWord op a b imm = w ↔
      Code.opOf w = op ∧ Code.aOf w = a ∧ Code.bOf w = b ∧ Code.rsvOf w = 0 ∧ Code.immOf w = imm := by
  constructor
  · rintro rfl
    exact packWord_fields op a b imm
  · rintro ⟨rfl, rfl, rfl, hrsv, rfl⟩
    exact packWord_of_fields hrsv

/-! ### Decode after encode, encode after decode -/

theorem decode_packWord (op a b : BitVec 8) (imm : Word) :
    decode (.word (packWord op a b imm)) = decodeFields op a b imm := by
  obtain ⟨hop, ha, hb, hrsv, himm⟩ := packWord_fields op a b imm
  simp only [Code.opOf, Code.aOf, Code.bOf, Code.rsvOf, Code.immOf] at hop ha hb hrsv himm
  simp only [decode, decodeWord, hop, ha, hb, hrsv, himm, ifZero, if_true]

/-- The key of a format pair's routine (30_encoding.md R99). -/
theorem encode_routine (src snk : SampleFormat) :
    encode (src.routine snk) = .key (BitVec.ofNat 4 (3 * Machine.formatCode src + Machine.formatCode snk)) := by
  cases src <;> cases snk <;> rfl

theorem decode_encode (i : Instr) : decode (encode i) = some i := by
  cases i with
  | convS16S16 | convS16S24 | convS16S32 | convS24S16 | convS24S24 | convS24S32 | convS32S16 | convS32S24
  | convS32S32 => rfl
  | _ => exact decode_packWord _ _ _ _

/-- What the opcode map reads from the fields packs them again (30_encoding.md R92). -/
theorem encode_of_decodeFields {op a b : BitVec 8} {imm : Word} {i : Instr}
    (h : decodeFields op a b imm = some i) : encode i = .word (packWord op a b imm) := by
  have hop {n : Nat} (hn : op.toNat = n) : BitVec.ofNat 8 n = op := by
    rw [← hn, BitVec.ofNat_toNat, BitVec.setWidth_eq]
  unfold decodeFields at h
  split at h <;> simp only [Machine.ifZero_eq_some, Option.some.injEq, reduceCtorEq] at h
  any_goals cases_type* And
  all_goals subst_vars; rw [← hop ‹_›]; rfl

theorem encode_of_decode {c : Code} {i : Instr} (h : decode c = some i) : encode i = c := by
  cases c with
  | word w =>
    obtain ⟨hrsv, hfields⟩ := Machine.ifZero_eq_some.1 h
    exact (encode_of_decodeFields hfields).trans (congrArg Code.word (packWord_of_fields hrsv))
  | key k =>
    obtain ⟨src, snk, rfl⟩ := Machine.decode_key_routine h
    rw [encode_routine, ← (Machine.decode_key_eq_routine_iff k src snk).1 h, BitVec.ofNat_toNat,
      BitVec.setWidth_eq]

theorem decode_eq_some_iff {c : Code} {i : Instr} : decode c = some i ↔ encode i = c :=
  ⟨encode_of_decode, fun h => h ▸ decode_encode i⟩

/-! ### The opcode map -/

/-- A field of a command word: 0 where the command does not use it (30_encoding.md R98). -/
def keptField {n : Nat} (used : Bool) (x : BitVec n) : BitVec n := bif used then x else 0

/-- The bits that a command leaves free: the fields it uses (30_encoding.md R92). The command's mask is
their complement. -/
def operandBits (op : BitVec 8) : Packet :=
  packWord 0 (keptField (Code.usesA op.toNat) (.allOnes 8)) (keptField (Code.usesB op.toNat) (.allOnes 8))
    (keptField (Code.usesImm op.toNat) (.allOnes 32))

/-- The command word with opcode `op` that takes the operands it uses from `w`. -/
def withOpcode (op : BitVec 8) (w : Packet) : Packet :=
  packWord op (keptField (Code.usesA op.toNat) (Code.aOf w)) (keptField (Code.usesB op.toNat) (Code.bOf w))
    (keptField (Code.usesImm op.toNat) (Code.immOf w))

theorem operandBits_fields (op : BitVec 8) :
    Code.opOf (operandBits op) = 0 ∧
      Code.aOf (operandBits op) = keptField (Code.usesA op.toNat) (.allOnes 8) ∧
      Code.bOf (operandBits op) = keptField (Code.usesB op.toNat) (.allOnes 8) ∧
      Code.rsvOf (operandBits op) = 0 ∧
      Code.immOf (operandBits op) = keptField (Code.usesImm op.toNat) (.allOnes 32) :=
  packWord_fields _ _ _ _

/-- The rows of 30_encoding.md R92, from the fields each command uses. -/
theorem opcodeMap_eq :
    Safety.opcodeMap = (List.range' 1 11).map fun n =>
      (packWord (BitVec.ofNat 8 n) 0 0 0, ~~~operandBits (BitVec.ofNat 8 n)) := by
  decide

theorem extractLsb'_and_not (x y : Packet) {start len : Nat} (h : start + len ≤ 64) :
    (x &&& ~~~y).extractLsb' start len = x.extractLsb' start len &&& ~~~y.extractLsb' start len := by
  ext j hj
  have hbit : start + j < 64 := by omega
  simp [hbit]

theorem fields_and_not (x y : Packet) :
    Code.opOf (x &&& ~~~y) = Code.opOf x &&& ~~~Code.opOf y ∧
      Code.aOf (x &&& ~~~y) = Code.aOf x &&& ~~~Code.aOf y ∧
      Code.bOf (x &&& ~~~y) = Code.bOf x &&& ~~~Code.bOf y ∧
      Code.rsvOf (x &&& ~~~y) = Code.rsvOf x &&& ~~~Code.rsvOf y ∧
      Code.immOf (x &&& ~~~y) = Code.immOf x &&& ~~~Code.immOf y :=
  ⟨extractLsb'_and_not x y (by decide), extractLsb'_and_not x y (by decide),
    extractLsb'_and_not x y (by decide), extractLsb'_and_not x y (by decide),
    extractLsb'_and_not x y (by decide)⟩

theorem and_not_keptField_eq_zero_iff {n : Nat} (used : Bool) (x : BitVec n) :
    x &&& ~~~keptField used (.allOnes n) = 0 ↔ used = true ∨ x = 0 := by
  cases used <;> simp [keptField]

theorem eq_keptField_iff {n : Nat} (used : Bool) (x : BitVec n) :
    x = keptField used x ↔ used = true ∨ x = 0 := by
  cases used <;> simp [keptField]

theorem unusedZero_iff (w : Packet) :
    Code.unusedZero w = true ↔
      (Code.usesA (Code.opOf w).toNat = true ∨ Code.aOf w = 0) ∧
        (Code.usesB (Code.opOf w).toNat = true ∨ Code.bOf w = 0) ∧
        (Code.usesImm (Code.opOf w).toNat = true ∨ Code.immOf w = 0) := by
  simp only [Code.unusedZero, Bool.and_eq_true, Bool.or_eq_true, beq_iff_eq, and_assoc]

/-- To match the row of a command is to be that command's word with the word's own operands. -/
theorem matches_row_iff (op : BitVec 8) (w : Packet) :
    w &&& ~~~operandBits op = packWord op 0 0 0 ↔ withOpcode op w = w := by
  obtain ⟨hop, ha, hb, hrsv, himm⟩ := fields_and_not w (operandBits op)
  obtain ⟨hop', ha', hb', hrsv', himm'⟩ := operandBits_fields op
  have hall (x : BitVec 8) : x &&& ~~~0 = x := BitVec.and_allOnes
  rw [eq_comm, packWord_eq_iff, withOpcode, packWord_eq_iff, hop, ha, hb, hrsv, himm, hop', ha', hb', hrsv',
    himm', hall, hall]
  simp only [and_not_keptField_eq_zero_iff, eq_keptField_iff]

theorem matches_row_iff_decode {op : BitVec 8} {w : Packet} {i : Instr}
    (hi : encode i = .word (withOpcode op w)) :
    w &&& ~~~operandBits op = packWord op 0 0 0 ↔ decode (.word w) = some i := by
  rw [matches_row_iff, decode_eq_some_iff, hi, Code.word.injEq]

/-- A word is a command's word with its own operands exactly when R98 finds no fault with its fields. -/
theorem withOpcode_eq_self_iff (op : BitVec 8) (w : Packet) :
    withOpcode op w = w ↔ Code.opOf w = op ∧ Code.rsvOf w = 0 ∧ Code.unusedZero w = true := by
  rw [withOpcode, packWord_eq_iff, eq_keptField_iff, eq_keptField_iff, eq_keptField_iff, unusedZero_iff]
  constructor
  · rintro ⟨rfl, ha, hb, hrsv, himm⟩
    exact ⟨rfl, hrsv, ha, hb, himm⟩
  · rintro ⟨rfl, hrsv, ha, hb, himm⟩
    exact ⟨rfl, ha, hb, hrsv, himm⟩

/-! ### Legal words -/

/-- The opcode map reads an instruction from exactly the fields R98 finds no fault with. -/
theorem exists_decodeFields_iff (op a b : BitVec 8) (imm : Word) :
    (∃ i, decodeFields op a b imm = some i) ↔
      (1 ≤ op.toNat ∧ op.toNat ≤ 0x0B) ∧ (Code.usesA op.toNat = true ∨ a = 0) ∧
        (Code.usesB op.toNat = true ∨ b = 0) ∧ (Code.usesImm op.toNat = true ∨ imm = 0) := by
  unfold decodeFields
  split
  case h_12 =>
    have hundefined : ¬(1 ≤ op.toNat ∧ op.toNat ≤ 0x0B) := by grind
    simp [hundefined]
  all_goals simp [Machine.ifZero_eq_some, Code.usesA, Code.usesB, Code.usesImm, *]

theorem wellFormed_word_iff (w : Packet) :
    Code.wellFormed (.word w) = true ↔
      (1 ≤ (Code.opOf w).toNat ∧ (Code.opOf w).toNat ≤ 0x0B) ∧ Code.rsvOf w = 0 ∧ Code.unusedZero w = true := by
  simp only [Code.wellFormed, Code.opDefined, Code.rsvZero, Bool.and_eq_true, decide_eq_true_eq, beq_iff_eq,
    and_assoc]

/-- The words that decode are the legal ones (30_encoding.md R98). -/
theorem exists_decode_word_iff (w : Packet) :
    (∃ i, decode (.word w) = some i) ↔ Code.wellFormed (.word w) = true := by
  have hfields := exists_decodeFields_iff (Code.opOf w) (Code.aOf w) (Code.bOf w) (Code.immOf w)
  rw [wellFormed_word_iff, unusedZero_iff, and_left_comm, ← hfields, ← exists_and_left]
  exact exists_congr fun i => Machine.ifZero_eq_some

theorem decode_word_eq_none_iff (w : Packet) :
    decode (.word w) = none ↔ Code.wellFormed (.word w) = false := by
  rw [← Bool.not_eq_true, ← exists_decode_word_iff, ← Option.ne_none_iff_exists', not_not]

/-- The words that match a row of the opcode map are the legal ones (30_encoding.md R92, R98). -/
theorem exists_row_iff (w : Packet) :
    (∃ row ∈ Safety.opcodeMap, w &&& row.2 = row.1) ↔ Code.wellFormed (.word w) = true := by
  simp only [opcodeMap_eq, List.mem_map, List.mem_range'_1, exists_exists_and_eq_and, matches_row_iff,
    withOpcode_eq_self_iff, wellFormed_word_iff]
  constructor
  · rintro ⟨n, ⟨hlow, hhigh⟩, hop, hrest⟩
    have hn : (Code.opOf w).toNat = n := by rw [hop, BitVec.toNat_ofNat]; omega
    exact ⟨by omega, hrest⟩
  · rintro ⟨hop, hrest⟩
    exact ⟨(Code.opOf w).toNat, by omega, by simp, hrest⟩

end Sys2Proof

namespace Sys2Proof.Machine

open Sys2Proof.Safety

/-! ### Responses -/

theorem responseWord_ok (d : Word) : responseWord .ok d = d.setWidth 64 :=
  BitVec.eq_of_toNat_eq (by
    rw [toNat_responseWord_ok, BitVec.toNat_setWidth, Nat.mod_eq_of_lt (d.isLt.trans (by decide))])

theorem codeNumber_le (c : ResultCode) : (codeNumber c).toNat ≤ 5 := by cases c <;> decide

theorem out_answered_self (p : Port) (w : Packet) (s : State) : out p (answered p w s) = out p s ++ [w] := by
  cases p <;> rfl

theorem out_answered_ne {p q : Port} (h : q ≠ p) (w : Packet) (s : State) :
    out q (answered p w s) = out q s :=
  match p, q, h with
  | .cmd, .cfg, _ | .cfg, .cmd, _ => rfl
  | .cmd, .cmd, h | .cfg, .cfg, h => absurd rfl h

/-! ### What an accepted word answers -/

/-- `t` has one more response than `s`, on port `p`: a failure carries no data (30_encoding.md R96, R97). -/
def AnsweredOnce (p : Port) (s t : State) : Prop :=
  ∃ (c : BitVec 8) (d : Word), c.toNat ≤ 5 ∧ (c ≠ 0 → d = 0) ∧
    out p t = out p s ++ [0#24 ++ c ++ d] ∧ ∀ q, q ≠ p → out q t = out q s

theorem answeredOnce_respond (s : State) (c : ResultCode) {d : Word} (hd : c ≠ .ok → d = 0) :
    AnsweredOnce s.port s (s.respond c d) := by
  rw [State.respond_eq_answered]
  exact ⟨codeNumber c, d, codeNumber_le c, fun hc => hd fun h => hc (h ▸ rfl), out_answered_self _ _ s,
    fun _ hq => out_answered_ne hq _ s⟩

/-- A response after an update that is no response itself. -/
theorem answeredOnce_respond_of_update {s u : State} (hport : u.port = s.port) (hcmd : u.cmdOut = s.cmdOut)
    (hcfg : u.cfgOut = s.cfgOut) : AnsweredOnce s.port s (u.respond .ok 0) := by
  have hout (q : Port) : out q u = out q s := by cases q <;> assumption
  have h := answeredOnce_respond u .ok (d := 0) fun _ => rfl
  simpa only [AnsweredOnce, hport, hout] using h

/-- Every command but an accepted PROCESS is answered once (30_encoding.md R96). -/
theorem CommandEffect.answer {i : Instr} {s t : State} (h : CommandEffect i s t) :
    AnsweredOnce s.port s t ∨
      (∃ f, i = .process f) ∧ s.port = .cmd ∧ t.busy = true ∧ ∀ q, out q t = out q s := by
  cases h with
  | failed c => exact .inl (answeredOnce_respond s c fun _ => rfl)
  | read d => exact .inl (answeredOnce_respond s .ok fun h => absurd rfl h)
  | process f hi hp => exact .inr ⟨⟨f, hi⟩, hp, rfl, fun q => by cases q <;> rfl⟩
  | rbset | advance =>
    exact .inl (answeredOnce_respond_of_update (State.setRing_port _ _ _) (State.setRing_cmdOut _ _ _)
      (State.setRing_cfgOut _ _ _))
  | _ => exact .inl (answeredOnce_respond_of_update rfl rfl rfl)

/-- The acceptance of a CFG word leaves `BUSY` and all that stands at the CMD port. -/
theorem State.accept_cfg_frame {w : Packet} {s t : State} (h : State.accept .cfg w s = .next t) :
    t.busy = s.busy ∧ t.cmdHeld = s.cmdHeld ∧ t.cmdOut = s.cmdOut := by
  have hrespond (u : State) (hp : u.port = .cfg) (c : ResultCode) (d : Word) :
      (u.respond c d).cmdOut = u.cmdOut := by rw [State.respond_of_cfg hp]
  obtain ⟨-, rfl⟩ | ⟨i, -, he⟩ := State.accept_cases h
  · exact ⟨State.respond_busy _ _ _, State.respond_cmdHeld _ _ _, hrespond _ rfl _ _⟩
  · cases he with
    | failed | configure =>
      exact ⟨State.respond_busy _ _ _, State.respond_cmdHeld _ _ _, hrespond _ rfl _ _⟩
    | read _ hp | strmcfg _ _ hp | strmfree _ hp | negotiate _ _ _ hp | process _ _ hp
    | rbset _ _ _ _ _ _ hp | advance _ _ _ _ _ hp => cases hp

/-! ### GETGAIN and RBSET -/

theorem exec_getgain_of_badArg {s : State} {a b : BitVec 8} (h : s.port = .cmd)
    (hab : channelIndex a = none ∨ gainSel b = none) :
    exec (.getgain a b) s = .next (answered .cmd (responseWord .badArg 0) s) := by
  rw [← h, ← State.respond_eq_answered]
  simp only [exec, execGetgain, State.onCmd_of_cmd h]
  split
  · simp_all
  · rfl

theorem exec_rbset_of_cmd {s : State} {a b : BitVec 8} {x : RingSel} {f : RingField} (h : s.port = .cmd)
    (ha : ringSel a = some x) (hb : ringField b = some f) (v : Word) :
    exec (.rbset a b v) s =
      .next (answered .cmd (responseWord .ok 0) (s.setRing x ((s.ring x).set f v))) := by
  have hp : (s.setRing x ((s.ring x).set f v)).port = .cmd := (State.setRing_port _ _ _).trans h
  rw [← hp, ← State.respond_eq_answered]
  simp only [exec, execRbset, State.onCmd_of_cmd h, ha, hb, State.done]

theorem exec_rbset_of_badArg {s : State} {a b : BitVec 8} (h : s.port = .cmd)
    (hab : ringSel a = none ∨ ringField b = none) (v : Word) :
    exec (.rbset a b v) s = .next (answered .cmd (responseWord .badArg 0) s) := by
  rw [← h, ← State.respond_eq_answered]
  simp only [exec, execRbset, State.onCmd_of_cmd h]
  split
  · simp_all
  · rfl

end Sys2Proof.Machine

namespace Sys2Proof.Proofs

open Sys2Proof.Machine Sys2Proof.Safety

/-- Settles O1: a word is its fields packed, and the keys are those of the dispatch table. -/
theorem decodeEncodeAgree : Obligations.DecodeEncodeAgree := fun _ _ => decode_eq_some_iff

/-- Settles O2: each row is that of its opcode, and the command's code has the same fields. -/
theorem opcodeMapRows : Obligations.OpcodeMapRows := by
  intro w a b imm
  exact ⟨matches_row_iff_decode (op := 0x01#8) rfl, matches_row_iff_decode (op := 0x02#8) rfl,
    matches_row_iff_decode (op := 0x03#8) rfl, matches_row_iff_decode (op := 0x04#8) rfl,
    matches_row_iff_decode (op := 0x05#8) rfl, matches_row_iff_decode (op := 0x06#8) rfl,
    matches_row_iff_decode (op := 0x07#8) rfl, matches_row_iff_decode (op := 0x08#8) rfl,
    matches_row_iff_decode (op := 0x09#8) rfl, matches_row_iff_decode (op := 0x0A#8) rfl,
    matches_row_iff_decode (op := 0x0B#8) rfl⟩

/-- Settles O3: to match a row, to be legal and to decode are the same. -/
theorem illegalWordsAnswered : Obligations.IllegalWordsAnswered := by
  refine ⟨decode_word_eq_none_iff, fun w => ?_, fun p w s h => State.accept_of_illegal h p s, ?_⟩
  · rw [decode_word_eq_none_iff, ← Bool.not_eq_true, ← exists_row_iff]
    simp only [not_exists, not_and, ne_eq]
  · exact (decode_word_eq_none_iff 0#64).2 rfl

/-- Settles O10: only the engine's steps move the machine while it is busy, and the completion is the one
of them that answers. -/
theorem cmdPortHoldsWhileBusy : Obligations.CmdPortHoldsWhileBusy := by
  intro s t hbusy hreset hstep
  cases step_effect hstep with
  | complete ts hm _ hdone =>
    obtain ht | ⟨ht, rfl⟩ := hm <;> rw [ht] <;>
      exact ⟨(List.append_nil _).symm, nofun, fun _ => ⟨rfl, hdone⟩⟩
  | sample ts src snk ch hm =>
    obtain ⟨m, v, w, fi, ci, he⟩ := State.sampleStep_nextSample_frame hw src snk ch { s with turns := ts }
    rw [he]
    obtain ht | ⟨ht, rfl⟩ := hm <;> rw [ht] <;>
      exact ⟨(List.append_nil _).symm, fun _ => rfl, fun hidle => nomatch hbusy.symm.trans hidle⟩
  | quiet _ _ hidle => simp [hbusy] at hidle
  | accept _ _ _ _ _ hidle => simp [hbusy] at hidle
  | configure ts w _ ht ha =>
    obtain ⟨hbusy', hheld, hout⟩ := State.accept_cfg_frame ha
    rw [ht, hbusy']
    exact ⟨hheld.trans (List.append_nil _).symm, fun _ => hout, fun hidle => nomatch hbusy.symm.trans hidle⟩
  | reset ts ht => exact absurd ht (hreset ts)
  | present ts w ht =>
    rw [ht]
    exact ⟨rfl, fun _ => rfl, fun hidle => nomatch hbusy.symm.trans hidle⟩
  | peerWrite ts _ _ ht | peerRead ts _ ht =>
    rw [ht]
    exact ⟨(List.append_nil _).symm, fun _ => rfl, fun hidle => nomatch hbusy.symm.trans hidle⟩

/-- Settles O11: an illegal word and a legal one other than CONFIGURE have the same answer. -/
theorem cfgPortTakesConfigureOnly : Obligations.CfgPortTakesConfigureOnly := by
  intro s w ts hturn hconf
  have haccept : step s = State.accept .cfg w { s with turns := ts } := step_of_turn hturn
  cases hw : decode (.word w) with
  | none => exact haccept.trans (State.accept_of_illegal hw _ _)
  | some i =>
    have hnot (a : BitVec 8) (v : Word) : i ≠ .configure a v := fun hi => hconf a v (hi ▸ hw)
    rw [haccept, State.accept_of_decode hw, exec_of_cfg (decode_word_not_routine hw) hnot rfl, State.raise,
      State.respond_eq_answered, responseWord_badCommand]

/-- Settles O13: an illegal word is answered, and of the commands only an accepted PROCESS is not. -/
theorem oneResponsePerWord : Obligations.OneResponsePerWord := by
  intro p w s
  obtain ⟨t, haccept, ⟨-, rfl⟩ | ⟨i, hw, he⟩⟩ := State.accept_effect p w s
  · exact ⟨_, haccept, .inl (answeredOnce_respond { s with port := p } .badCommand fun _ => rfl)⟩
  · refine ⟨t, haccept, ?_⟩
    obtain hanswer | ⟨⟨f, rfl⟩, hport, hbusy, hout⟩ := he.answer
    · exact .inl hanswer
    · exact .inr ⟨⟨f, hw⟩, hport, hbusy, hout⟩

/-- Settles O4: each word is the code of its instruction. -/
theorem sampleWordsDecode : Obligations.SampleWordsDecode := by
  refine ⟨?_, ?_, ?_, ?_, ?_, ?_, ?_, ?_, ?_⟩ <;> exact decode_eq_some_iff.2 rfl

/-- Settles O5: the key of a routine's code decodes to the routine. -/
theorem dispatchTableEntries : Obligations.DispatchTableEntries := by
  refine ⟨fun src snk => ?_, fun k => decode_key_of_unnamed⟩
  rw [← encode_routine]
  exact decode_encode _

/-- Settles O8: while a sample is due the engine's step is the routine. -/
theorem stepRunsRoutine : Obligations.StepRunsRoutine := by
  intro s ts i hmoves hbusy hdue hc hkey
  obtain ⟨hrun, -⟩ := State.engineStep_of_due (s := { s with turns := ts }) hc hdue
  exact (step_of_busy hmoves hbusy).trans (hrun i hkey)

/-- Settles O22: each selector names one register file or none. -/
theorem getgainResult : Obligations.GetgainResult := by
  intro s a b hport
  refine ⟨fun ha => ?_, fun hab => ?_⟩
  · have hread {b : BitVec 8} (f : GainSel) (hb : gainSel b = some f) :=
      responseWord_ok (s.gainReg f ⟨a.toNat, ha⟩) ▸ exec_getgain_of_cmd hport (channelIndex_of_lt ha) hb
    exact ⟨hread .gain rfl, hread .scaled rfl, hread .act rfl⟩
  · exact exec_getgain_of_badArg hport
      (hab.imp (fun ha => channelIndex_of_ge (not_lt.2 ha)) gainSel_eq_none.2)

/-- Settles O23: a pair of selectors names one field of one ring or none. -/
theorem rbsetResult : Obligations.RbsetResult := by
  intro s a b v hport
  have hwrite {a b : BitVec 8} (x : RingSel) (f : RingField) (ha : ringSel a = some x)
      (hb : ringField b = some f) := exec_rbset_of_cmd hport ha hb v
  exact ⟨hwrite .source .addr rfl rfl, hwrite .source .endAddr rfl rfl, hwrite .source .rptr rfl rfl,
    hwrite .source .wptr rfl rfl, hwrite .sink .addr rfl rfl, hwrite .sink .endAddr rfl rfl,
    hwrite .sink .rptr rfl rfl, hwrite .sink .wptr rfl rfl,
    fun hab => exec_rbset_of_badArg hport (hab.imp ringSel_eq_none.2 ringField_eq_none.2) v⟩

end Sys2Proof.Proofs
end

section
/-! PROOFS. The statement about RBGET (40_ring_buffer.md R121). First the rules it cites, then the statement. -/

namespace Sys2Proof

theorem ifZero_eq_none {n : Nat} {field : BitVec n} {i : Option Instr} :
    ifZero field i = none ↔ field ≠ 0 ∨ i = none := by
  rw [ifZero, ite_eq_right_iff, imp_iff_not_or]

/-- The opcode map on a word with the opcode of RBGET (30_encoding.md R92). -/
theorem decode_of_rbget_op {w : Packet} (hop : Code.opOf w = 0x07#8) :
    decode (.word w) =
      ifZero (Code.rsvOf w) (ifZero (Code.immOf w) (some (.rbget (Code.aOf w) (Code.bOf w)))) :=
  congrArg (fun op => ifZero (Code.rsvOf w) (decodeFields op (Code.aOf w) (Code.bOf w) (Code.immOf w))) hop

theorem decode_eq_rbget {w : Packet} (hop : Code.opOf w = 0x07#8) (hrsv : Code.rsvOf w = 0)
    (himm : Code.immOf w = 0) : decode (.word w) = some (.rbget (Code.aOf w) (Code.bOf w)) := by
  rw [decode_of_rbget_op hop]
  exact Machine.ifZero_eq_some.2 ⟨hrsv, Machine.ifZero_eq_some.2 ⟨himm, rfl⟩⟩

theorem decode_eq_none_of_rbget_op {w : Packet} (hop : Code.opOf w = 0x07#8)
    (hfields : Code.rsvOf w ≠ 0 ∨ Code.immOf w ≠ 0) : decode (.word w) = none := by
  rw [decode_of_rbget_op hop]
  exact ifZero_eq_none.2 (hfields.imp_right fun himm => ifZero_eq_none.2 (.inl himm))

end Sys2Proof

namespace Sys2Proof.Machine

open Sys2Proof.Safety

/-- A field is returned as it stands, zero-extended to the response word (30_encoding.md R96). -/
theorem exec_rbget_reads_field {s : State} {a b : BitVec 8} (h : s.port = .cmd) (x : RingSel) (f : RingField)
    (ha : ringSel a = some x) (hb : ringField b = some f) :
    exec (.rbget a b) s = .next (answered .cmd (((s.ring x).get f).setWidth 64) s) := by
  rw [exec_rbget_of_cmd h ha hb, responseWord_ok]

theorem exec_rbget_of_badArg {s : State} {a b : BitVec 8} (h : s.port = .cmd)
    (hab : ringSel a = none ∨ ringField b = none) :
    exec (.rbget a b) s = .next (answered .cmd (responseWord .badArg 0) s) := by
  rw [← h, ← State.respond_eq_answered]
  simp only [exec, execRbget, State.onCmd_of_cmd h]
  split
  · simp_all
  · rfl

theorem exec_rbget_of_cfg {s : State} (h : s.port = .cfg) (a b : BitVec 8) :
    exec (.rbget a b) s = .next (answered .cfg (responseWord .badCommand 0) s) := by
  rw [← h, ← State.respond_eq_answered]
  exact State.onCmd_of_cfg h _

end Sys2Proof.Machine

namespace Sys2Proof.Proofs

open Sys2Proof.Machine Sys2Proof.Safety

/-- Settles O24: a pair of selectors names one field of one ring or none, and a word with the opcode of
RBGET is RBGET's or illegal. -/
theorem rbgetResult : Obligations.RbgetResult := by
  refine ⟨fun s a b hport => ?_, fun s a b hport => exec_rbget_of_cfg hport a b, fun w hop => ?_,
    fun s hport hend => ?_⟩
  · have hget {a b : BitVec 8} := exec_rbget_reads_field (a := a) (b := b) hport
    exact ⟨hget .source .addr rfl rfl, hget .source .endAddr rfl rfl, hget .source .rptr rfl rfl,
      hget .source .wptr rfl rfl, hget .sink .addr rfl rfl, hget .sink .endAddr rfl rfl,
      hget .sink .rptr rfl rfl, hget .sink .wptr rfl rfl,
      fun hab => exec_rbget_of_badArg hport (hab.imp ringSel_eq_none.2 ringField_eq_none.2)⟩
  · exact ⟨fun ⟨hrsv, himm⟩ => decode_eq_rbget hop hrsv himm,
      fun hfields p s => State.accept_of_illegal (decode_eq_none_of_rbget_op hop hfields) p s⟩
  · have hvalue : (s.ring .source).get .endAddr = 0x1010#32 := hend
    exact ⟨decode_eq_some_iff.2 rfl, by
      rw [exec_rbget_reads_field hport .source .endAddr rfl rfl, hvalue]; rfl⟩

end Sys2Proof.Proofs
end

section
/-! PROOFS. The statements about the gain table (41_gain_table.md): what CONFIGURE writes, and the gain
latch at the acceptance of PROCESS. First the rules they cite, then the statements. -/

namespace Sys2Proof.Machine

open Sys2Proof.Safety

/-! ### CONFIGURE -/

/-- With K = 1 the rescaled gain is the gain (41_gain_table.md R142). -/
theorem rescaleGain_hw (g : Nat) : rescaleGain hw g = g := by
  rw [rescaleGain, Laws.rescaleFactor_hw, Nat.mul_one]

/-- The clamped gain as a register holds it (41_gain_table.md R141). -/
theorem ofNat_clampGain_hw (v : Word) :
    BitVec.ofNat 32 (clampGain hw v) = if v.toNat ≤ 2147483647 then v else 0x7FFFFFFF#32 := by
  split
  · next hle => rw [clampGain_of_le hle, BitVec.ofNat_toNat, BitVec.setWidth_eq]
  · next hgt => rw [clampGain, Nat.min_eq_right (le_of_not_ge hgt)]

/-! ### PROCESS -/

/-- PROCESS with a ring that is not valid, once the stream is resolved (60_exceptions.md R247). -/
theorem exec_process_of_invalid {s : State} (h : s.port = .cmd) (hr : s.resolved = true)
    (hv : s.ringSrc.valid = false ∨ s.ringSnk.valid = false) (f : Word) :
    exec (.process f) s = .next (answered .cmd (responseWord .badRing 0) s) := by
  rw [← h, ← State.respond_eq_answered]
  exact (State.onCmd_of_cmd h _).trans ((if_neg (by simp [hr])).trans (if_pos hv))

/-! ### Who writes `ACT` -/

/-- Of the commands only an accepted PROCESS writes `ACT`: it latches `SCALED` (41_gain_table.md R144). -/
theorem CommandEffect.act_cases {i : Instr} {s t : State} (h : CommandEffect i s t) :
    t.act = s.act ∨ t.act = s.scaled ∧ t.busy = true ∧ s.port = .cmd ∧ ∃ f, i = .process f := by
  cases h with
  | process f hi hp => exact .inr ⟨rfl, rfl, hp, f, hi⟩
  | _ => exact .inl (by simp)

theorem State.accept_act_cases {p : Port} {w : Packet} {s t : State} (h : State.accept p w s = .next t) :
    t.act = s.act ∨
      t.act = s.scaled ∧ t.busy = true ∧ p = .cmd ∧ ∃ f, decode (.word w) = some (.process f) := by
  obtain ⟨-, rfl⟩ | ⟨i, hw, he⟩ := State.accept_cases h
  · exact .inl (State.respond_act _ _ _)
  · exact he.act_cases.imp_right fun ⟨hact, hbusy, hp, f, hi⟩ => ⟨hact, hbusy, hp, f, hi ▸ hw⟩

/-- A sample step reads `ACT` and writes none of it (10_state.md R36). -/
theorem State.sampleStep_nextSample_act (p : Config.Params) (src snk : SampleFormat) (ch : Fin hw.maxCh)
    (s : State) : (State.sampleStep p src snk ch s).nextSample.act = s.act := by
  obtain ⟨m, v, w, fi, ci, he⟩ := State.sampleStep_nextSample_frame p src snk ch s
  rw [he]

end Sys2Proof.Machine

namespace Sys2Proof.Proofs

open Sys2Proof.Machine Sys2Proof.Safety

/-- Settles O54: of the agents' turns only the acceptance of a held word writes `ACT`, and of the words
only PROCESS; CFG takes no PROCESS. -/
theorem actLatchedAtAcceptanceOnly : Obligations.ActLatchedAtAcceptanceOnly := by
  intro s t hreset hstep
  cases step_effect hstep with
  | complete ts => exact .inl (State.completePeriod_act _)
  | sample ts src snk ch => exact .inl (State.sampleStep_nextSample_act hw src snk ch { s with turns := ts })
  | accept ts w rest _ _ hidle hheld ha =>
    obtain hkept | ⟨hlatched, hbusy, -, f, hw⟩ := State.accept_act_cases ha
    · exact .inl hkept
    · exact .inr ⟨hlatched, hidle, hbusy, w, rest, f, hheld, hw⟩
  | configure ts w _ _ ha =>
    obtain hkept | ⟨-, -, hcmd, -⟩ := State.accept_act_cases ha
    · exact .inl hkept
    · cases hcmd
  | reset ts hturn => exact absurd hturn (hreset ts)
  | quiet | present | peerWrite | peerRead => exact .inl rfl

/-- Settles O19: PROCESS checks the resolution before the rings, and latches when both hold. -/
theorem processAcceptance : Obligations.ProcessAcceptance := by
  intro s f hport
  exact ⟨fun hr hsrc hsnk => exec_process_of_ready hport hr hsrc hsnk f,
    fun hr => exec_process_of_unresolved hport hr f, fun hr hv => exec_process_of_invalid hport hr hv f⟩

/-- Settles O20: `GAIN` takes the clamped gain, and `SCALED` the same value since K = 1. -/
theorem configureResult : Obligations.ConfigureResult := by
  intro s a v
  refine ⟨fun ha => ?_, fun ha => ?_⟩
  · rw [exec_configure_of_lt ha, rescaleGain_hw, ofNat_clampGain_hw, State.respond_eq_answered]
    rfl
  · rw [exec_configure_of_ge (not_lt.2 ha), State.raise, State.respond_eq_answered]
    rfl

end Sys2Proof.Proofs
end

section
/-! PROOFS. The statements about the sample datapath (42_datapath.md): its closed forms and bounds, what a
step of a routine reads of the gain registers, and that no step stops. First the rules they cite, then the
statements. -/

namespace Sys2Proof.Machine

open Sys2Proof.Safety

/-! ### Bounds of the rounding shift -/

section
variable {p b : Int} {t : Nat}

theorem rnd_le_of_le (ht : 0 < t) (h : p ≤ b * 2 ^ t) : rnd p t ≤ b := by
  obtain ⟨upper, -⟩ := rnd_bounds p ht
  have weight_pos : (0 : Int) < 2 ^ t := by positivity
  have scaled : 2 * rnd p t * 2 ^ t < (2 * b + 2) * 2 ^ t := by linarith
  have := lt_of_mul_lt_mul_right scaled weight_pos.le
  omega

theorem le_rnd_of_le (ht : 0 < t) (h : b * 2 ^ t ≤ p) : b ≤ rnd p t := by
  have := rnd_le_of_le (b := -b) ht (p := -p) (by linarith)
  rw [rnd_neg p ht] at this
  omega

theorem abs_rnd_le (ht : 0 < t) (h : |p| ≤ b * 2 ^ t) : |rnd p t| ≤ b := by
  obtain ⟨lower, upper⟩ := abs_le.1 h
  exact abs_le.2 ⟨le_rnd_of_le ht (by linarith), rnd_le_of_le ht upper⟩

theorem abs_rnd_le_abs (p : Int) (t : Nat) : |rnd p t| ≤ |p| := by
  rcases Nat.eq_zero_or_pos t with rfl | ht
  · exact le_rfl
  · exact abs_rnd_le ht (le_mul_of_one_le_right (abs_nonneg p) (one_le_pow₀ one_le_two))

/-- The smallest value that rounds to a positive `b` is the tie below it (42_datapath.md R174 (b)). -/
theorem le_rnd_iff (ht : 0 < t) (hb : 0 < b) : b ≤ rnd p t ↔ (2 * b - 1) * 2 ^ (t - 1) ≤ p := by
  obtain ⟨upper, -, pos_case, -⟩ := rnd_bounds p ht
  have weight_pos : (0 : Int) < 2 ^ t := by positivity
  have halves := two_pow_eq_two_mul_half ht
  have twice : (2 * b - 1) * 2 ^ t = 2 * ((2 * b - 1) * 2 ^ (t - 1)) := by rw [halves]; ring
  constructor <;> intro h
  · have scaled : 2 * b * 2 ^ t ≤ 2 * rnd p t * 2 ^ t :=
      mul_le_mul_of_nonneg_right (by omega) weight_pos.le
    linarith
  · have tie_nonneg : 0 ≤ (2 * b - 1) * (2 : Int) ^ (t - 1) := mul_nonneg (by omega) (by positivity)
    obtain ⟨lower, -⟩ := pos_case (tie_nonneg.trans h)
    have scaled : (2 * b - 2) * 2 ^ t < 2 * rnd p t * 2 ^ t := by linarith
    have := lt_of_mul_lt_mul_right scaled weight_pos.le
    omega

end

theorem rnd_zero (t : Nat) : rnd 0 t = 0 := by
  rcases Nat.eq_zero_or_pos t with rfl | ht
  · rfl
  · have := rnd_neg 0 ht
    rw [neg_zero] at this
    omega

/-- At unity gain the rounding shift is off by half a weight, and one more for the gain's last bit. -/
theorem rnd_unity_error {x : Int} (hx : |x| ≤ 2 ^ 31) (e : Nat) :
    2 * |rnd (x * 2147483647) (31 + e) * 2 ^ e - x| ≤ 2 ^ e + 2 := by
  obtain ⟨upper, lower, -⟩ := rnd_bounds (x * 2147483647) (show 0 < 31 + e by omega)
  rw [pow_add] at upper lower
  have regroup : 2 * rnd (x * 2147483647) (31 + e) * (2 ^ 31 * 2 ^ e) =
      2 ^ 32 * (rnd (x * 2147483647) (31 + e) * 2 ^ e) := by ring
  rw [regroup] at upper lower
  generalize rnd (x * 2147483647) (31 + e) * 2 ^ e = q at *
  generalize (2 : Int) ^ e = w at *
  rw [abs_le] at hx
  have twice : |2 * (q - x)| ≤ w + 2 := abs_le.2 ⟨by omega, by omega⟩
  rwa [abs_mul, abs_two] at twice

theorem rnd31_unity_error {x : Int} (hx : |x| ≤ 2 ^ 31) : |rnd (x * 2147483647) 31 - x| ≤ 1 := by
  have := rnd_unity_error hx 0
  rw [add_zero, pow_zero, mul_one] at this
  omega

/-- At unity gain a value below `2^30` comes back as it is. -/
theorem rnd_unity {x : Int} (hx : |x| < 2 ^ 30) : rnd (x * 2147483647) 31 = x := by
  obtain ⟨hlow, hhigh⟩ := abs_lt.1 hx
  obtain ⟨upper, lower, -⟩ := rnd_bounds (x * 2147483647) (show 0 < 31 by decide)
  omega

/-! ### Saturation -/

theorem sat_zero (n : Nat) : sat n 0 = 0 := by
  have : (0 : Int) < 2 ^ (n - 1) := by positivity
  exact sat_of_mem (by omega) (by omega)

/-- Saturation brings no value further from a target in range, up to one past the positive maximum. -/
theorem abs_sat_mul_sub_le {n : Nat} {x y k : Int} (hk : 0 ≤ k) (hlow : -2 ^ (n - 1) * k ≤ y)
    (hhigh : y ≤ 2 ^ (n - 1) * k) (h : |x * k - y| ≤ k) : |sat n x * k - y| ≤ k := by
  unfold sat
  rw [abs_le] at *
  split_ifs with hbelow habove
  · have hnext : (x + 1) * k ≤ -2 ^ (n - 1) * k := mul_le_mul_of_nonneg_right (by omega) hk
    constructor <;> linarith
  · have hpast : 2 ^ (n - 1) * k ≤ x * k := mul_le_mul_of_nonneg_right (by omega) hk
    constructor <;> linarith
  · exact h

/-! ### The sample of a container -/

theorem sext_eq_toInt {n : Nat} (hn : 0 < n) (c : Nat) : sext n (c % 2 ^ n) = (BitVec.ofNat n c).toInt := by
  have hhalf : 2 ^ n = 2 * 2 ^ (n - 1) := by rw [← pow_succ', Nat.sub_add_cancel hn]
  have hsign : 2 * (c % 2 ^ n) < 2 ^ n ↔ c % 2 ^ n < 2 ^ (n - 1) := by omega
  rw [BitVec.toInt_eq_toNat_cond, BitVec.toNat_ofNat]
  simp only [sext, hsign, Nat.cast_pow, Nat.cast_ofNat]

/-- The sample is the two's-complement value of the low `W` bits (42_datapath.md R161). -/
theorem sampleOf_eq_toInt (f : SampleFormat) (c : Nat) :
    sampleOf f c = (BitVec.ofNat (sampleWidth f) c).toInt := sext_eq_toInt (sampleWidth_pos f) c

theorem sampleOf_mem (f : SampleFormat) (c : Nat) :
    -2 ^ (sampleWidth f - 1) ≤ sampleOf f c ∧ sampleOf f c ≤ 2 ^ (sampleWidth f - 1) - 1 := by
  rw [sampleOf_eq_toInt]
  exact ⟨BitVec.le_toInt _, Int.le_sub_one_of_lt (BitVec.toInt_lt)⟩

theorem sampleOf_abs_le (f : SampleFormat) (c : Nat) : |sampleOf f c| ≤ 2 ^ (sampleWidth f - 1) := by
  obtain ⟨hlow, hhigh⟩ := sampleOf_mem f c
  exact abs_le.2 ⟨hlow, by omega⟩

/-! ### Pre-alignment and gain -/

theorem wrap32_of_mem {x : Int} (hlow : -2 ^ 31 ≤ x) (hhigh : x ≤ 2 ^ 31 - 1) : wrap32 x = x :=
  sext_enc (n := 32) (by decide) hlow hhigh

/-- Pre-alignment fills the working width (42_datapath.md R162). -/
theorem half_mul_preAlign_scale (f : SampleFormat) :
    (2 : Int) ^ (sampleWidth f - 1) * 2 ^ (32 - sampleWidth f) = 2 ^ 31 := by cases f <;> rfl

/-- Pre-alignment puts the sample at the top of the working width, so the wrap does not act
(42_datapath.md R162). -/
theorem preAlign_sampleOf (src snk : SampleFormat) (c : Nat) :
    preAlign (shiftTable src snk) (sampleOf src c) = sampleOf src c * 2 ^ (32 - sampleWidth src) := by
  obtain ⟨hlow, hhigh⟩ := sampleOf_mem src c
  have scale_pos : (0 : Int) < 2 ^ (32 - sampleWidth src) := by positivity
  rw [preAlign, Laws.shiftTable_pre]
  refine wrap32_of_mem ?_ (Int.le_sub_one_of_lt ?_) <;> rw [← half_mul_preAlign_scale src]
  · rw [← neg_mul]
    exact mul_le_mul_of_nonneg_right hlow scale_pos.le
  · exact mul_lt_mul_of_pos_right (by omega) scale_pos

theorem preAlign_abs_le (src snk : SampleFormat) (c : Nat) :
    |preAlign (shiftTable src snk) (sampleOf src c)| ≤ 2 ^ 31 := by
  rw [preAlign_sampleOf, abs_mul, abs_pow, abs_two, ← half_mul_preAlign_scale src]
  exact mul_le_mul_of_nonneg_right (sampleOf_abs_le src c) (by positivity)

section
variable {m : Nat} (hm : m ≤ 2147483647)
include hm

/-- The product fits (42_datapath.md R171). -/
theorem abs_mul_gain_le {x b : Int} (hx : |x| ≤ b) : |x * m| ≤ b * (2 ^ 31 - 1) := by
  rw [abs_mul, Nat.abs_cast]
  exact mul_le_mul hx (by omega) (by omega) ((abs_nonneg x).trans hx)

theorem abs_rnd_gain_le {w : Int} (hw : |w| ≤ 2 ^ 31) (k : Nat) : |rnd (w * m) (31 + k)| ≤ 2 ^ 31 - 1 := by
  refine abs_rnd_le (by omega) ((abs_mul_gain_le hm hw).trans ?_)
  rw [mul_comm]
  exact mul_le_mul_of_nonneg_left (pow_le_pow_right₀ one_le_two (by omega)) (by norm_num)

/-- At a legal gain the saturation of step 3 does not act (42_datapath.md R165, R167). -/
theorem applyGain_eq_rnd {w : Int} (hw : |w| ≤ 2 ^ 31) (row : ShiftRow) :
    applyGain 31 row w m = rnd (w * m) (31 + row.pms) := by
  obtain ⟨hlow, hhigh⟩ := abs_le.1 (abs_rnd_gain_le hm hw row.pms)
  exact sat_of_mem (by omega) hhigh

/-- The pre-alignment cancels against the post-multiply shift, by the table of 42_datapath.md R170. -/
theorem applyGain_sampleOf (src snk : SampleFormat) (c : Nat) :
    applyGain 31 (shiftTable src snk) (preAlign (shiftTable src snk) (sampleOf src c)) m =
      rnd (sampleOf src c * m) (31 + ((shiftTable src snk).pms - (shiftTable src snk).pre)) := by
  have hpre : (shiftTable src snk).pre ≤ (shiftTable src snk).pms := by
    cases src <;> cases snk <;> decide
  have hshift : 31 + (shiftTable src snk).pms =
      31 + ((shiftTable src snk).pms - (shiftTable src snk).pre) + (shiftTable src snk).pre := by omega
  rw [applyGain_eq_rnd hm (preAlign_abs_le src snk c), preAlign_sampleOf, ← Laws.shiftTable_pre src snk,
    mul_right_comm, hshift, rnd_scale _ _ _ (by omega)]

/-! ### The aligned value

Three kinds of row: the sink at least as wide as the source, narrowing to S16, and S32 to S24. -/

theorem aligned_of_le {src snk : SampleFormat} (h : sampleWidth src ≤ sampleWidth snk) (c : Nat) :
    aligned src snk (sampleOf src c) m =
      rnd (sampleOf src c * m) 31 * 2 ^ (sampleWidth snk - sampleWidth src) := by
  rw [aligned, applyGain_sampleOf hm]
  revert h
  cases src <;> cases snk <;> simp [shiftTable, postAlign, sampleWidth]

theorem aligned_s16 (src : SampleFormat) (c : Nat) :
    aligned src .s16 (sampleOf src c) m = rnd (sampleOf src c * m) (31 + (sampleWidth src - 16)) := by
  rw [aligned, applyGain_sampleOf hm]
  cases src <;> simp [shiftTable, postAlign, sampleWidth]

theorem aligned_s32_s24 (c : Nat) :
    aligned .s32 .s24 (sampleOf .s32 c) m = rnd (rnd (sampleOf .s32 c * m) 31) 8 := by
  rw [aligned, applyGain_sampleOf hm]
  rfl

end

theorem row_kinds (src snk : SampleFormat) :
    sampleWidth src ≤ sampleWidth snk ∨ sampleWidth snk < sampleWidth src ∧
      (snk = .s16 ∨ src = .s32 ∧ snk = .s24) := by
  cases src <;> cases snk <;> decide

/-- Step 5 of the conversion narrows the aligned value (42_datapath.md R167, R169). -/
theorem conv_eq_sat_aligned (src snk : SampleFormat) (c m : Nat) :
    conv hw src snk c m = sat (sampleWidth snk) (aligned src snk (sampleOf src c) m) := by
  rw [← Laws.shiftTable_sinkWidth src snk]
  rfl

section
variable {m : Nat} (hm : m ≤ 2147483647)
include hm

/-- The range of the product, as multiples of the weight the gain's fraction discards. -/
theorem product_mem (src : SampleFormat) (c : Nat) :
    -2 ^ (sampleWidth src - 1) * 2 ^ 31 ≤ sampleOf src c * m ∧
      sampleOf src c * m ≤ (2 ^ (sampleWidth src - 1) - 1) * 2 ^ 31 := by
  obtain ⟨hlow, hhigh⟩ := sampleOf_mem src c
  have half_pos : (0 : Int) < 2 ^ (sampleWidth src - 1) := by positivity
  have hgain : (m : Int) ≤ 2 ^ 31 := by omega
  constructor
  · calc -2 ^ (sampleWidth src - 1) * 2 ^ 31 ≤ -2 ^ (sampleWidth src - 1) * (m : Int) :=
          mul_le_mul_of_nonpos_left hgain (by omega)
      _ ≤ sampleOf src c * m := mul_le_mul_of_nonneg_right hlow (by omega)
  · calc sampleOf src c * m ≤ (2 ^ (sampleWidth src - 1) - 1) * (m : Int) :=
          mul_le_mul_of_nonneg_right hhigh (by omega)
      _ ≤ _ := mul_le_mul_of_nonneg_left hgain (by omega)

/-- The product rounded at bit 31 is in the sample's range. -/
theorem rnd_product_mem (src : SampleFormat) (c : Nat) :
    -2 ^ (sampleWidth src - 1) ≤ rnd (sampleOf src c * m) 31 ∧
      rnd (sampleOf src c * m) 31 ≤ 2 ^ (sampleWidth src - 1) - 1 := by
  obtain ⟨hlow, hhigh⟩ := product_mem hm src c
  exact ⟨le_rnd_of_le (by decide) hlow, rnd_le_of_le (by decide) hhigh⟩

theorem aligned_mem_of_le {src snk : SampleFormat} (h : sampleWidth src ≤ sampleWidth snk) (c : Nat) :
    -2 ^ (sampleWidth snk - 1) ≤ aligned src snk (sampleOf src c) m ∧
      aligned src snk (sampleOf src c) m < 2 ^ (sampleWidth snk - 1) := by
  obtain ⟨hlow, hhigh⟩ := rnd_product_mem hm src c
  have hsrc := sampleWidth_pos src
  have hpow : (2 : Int) ^ (sampleWidth snk - 1) =
      2 ^ (sampleWidth src - 1) * 2 ^ (sampleWidth snk - sampleWidth src) := by
    rw [← pow_add]; congr 1; omega
  have scale_pos : (0 : Int) < 2 ^ (sampleWidth snk - sampleWidth src) := by positivity
  rw [aligned_of_le hm h, hpow, ← neg_mul]
  exact ⟨mul_le_mul_of_nonneg_right hlow scale_pos.le, mul_lt_mul_of_pos_right (by omega) scale_pos⟩

/-- The aligned value is in the sink's range, or one past its positive maximum (42_datapath.md R174 (e)). -/
theorem aligned_mem (src snk : SampleFormat) (c : Nat) :
    -2 ^ (sampleWidth snk - 1) ≤ aligned src snk (sampleOf src c) m ∧
      aligned src snk (sampleOf src c) m ≤ 2 ^ (sampleWidth snk - 1) := by
  rcases row_kinds src snk with h | ⟨h, rfl | ⟨rfl, rfl⟩⟩
  · obtain ⟨hlow, hhigh⟩ := aligned_mem_of_le hm h c
    exact ⟨hlow, hhigh.le⟩
  · obtain ⟨hlow, hhigh⟩ := product_mem hm src c
    have hpow : (2 : Int) ^ (sampleWidth src - 1) * 2 ^ 31 = 2 ^ 15 * 2 ^ (31 + (sampleWidth src - 16)) := by
      cases src <;> rfl
    have hlow' : -2 ^ 15 * 2 ^ (31 + (sampleWidth src - 16)) ≤ sampleOf src c * m := by linarith
    have hhigh' : sampleOf src c * m ≤ 2 ^ 15 * 2 ^ (31 + (sampleWidth src - 16)) := by linarith
    rw [aligned_s16 hm]
    exact ⟨le_rnd_of_le (by omega) hlow', rnd_le_of_le (by omega) hhigh'⟩
  · obtain ⟨hlow, hhigh⟩ := rnd_product_mem hm .s32 c
    rw [aligned_s32_s24 hm]
    exact ⟨le_rnd_of_le (by decide) hlow, rnd_le_of_le (by decide) (hhigh.trans (by decide))⟩

theorem conv_eq_aligned_of_le {src snk : SampleFormat} (h : sampleWidth src ≤ sampleWidth snk) (c : Nat) :
    conv hw src snk c m = aligned src snk (sampleOf src c) m := by
  obtain ⟨hlow, hhigh⟩ := aligned_mem_of_le hm h c
  rw [conv_eq_sat_aligned, sat_of_mem hlow (by omega)]

end

/-- The closed forms of the rows that do not narrow (42_datapath.md R176). -/
theorem closedForm_of_le {src snk : SampleFormat} (h : sampleWidth src ≤ sampleWidth snk) (x : Int) (m : Nat) :
    closedForm src snk x m = rnd (x * m) 31 * 2 ^ (sampleWidth snk - sampleWidth src) := by
  revert h
  cases src <;> cases snk <;> simp [closedForm, sampleWidth]

/-- The closed forms of the rows that narrow to S16 (42_datapath.md R176). -/
theorem closedForm_s16 {src : SampleFormat} (h : sampleWidth .s16 < sampleWidth src) (x : Int) (m : Nat) :
    closedForm src .s16 x m = sat 16 (rnd (x * m) (31 + (sampleWidth src - 16))) := by
  cases src with
  | s16 => exact absurd h (lt_irrefl _)
  | s24 => rfl
  | s32 => rfl

/-! ### Unity gain -/

theorem aligned_unity_error_of_le {src snk : SampleFormat} (h : sampleWidth src ≤ sampleWidth snk) (c : Nat) :
    |aligned src snk (sampleOf src c) 2147483647
        - sampleOf src c * 2 ^ (sampleWidth snk - sampleWidth src)| ≤ 1 := by
  have hrange := sampleOf_abs_le src c
  have hexact (hwidth : sampleWidth src - 1 < 30) : rnd (sampleOf src c * 2147483647) 31 = sampleOf src c :=
    rnd_unity (hrange.trans_lt (pow_lt_pow_right₀ one_lt_two hwidth))
  rw [aligned_of_le le_rfl h]
  cases src with
  | s16 => simp [hexact (by decide)]
  | s24 => simp [hexact (by decide)]
  | s32 =>
    obtain rfl : snk = .s32 := by revert h; cases snk <;> decide
    simpa using rnd31_unity_error hrange

theorem aligned_unity_error_s16 {src : SampleFormat} (h : sampleWidth .s16 < sampleWidth src) (c : Nat) :
    |aligned src .s16 (sampleOf src c) 2147483647 * 2 ^ (sampleWidth src - 16) - sampleOf src c|
      ≤ 2 ^ (sampleWidth src - 16) := by
  have hrange : |sampleOf src c| ≤ 2 ^ 31 :=
    (sampleOf_abs_le src c).trans (pow_le_pow_right₀ one_le_two (by cases src <;> decide))
  have herror := rnd_unity_error hrange (sampleWidth src - 16)
  have hlsb : (2 : Int) ≤ 2 ^ (sampleWidth src - 16) := by revert h; cases src <;> decide
  rw [aligned_s16 le_rfl, Nat.cast_ofNat]
  linarith

theorem aligned_unity_error_s32_s24 (c : Nat) :
    |aligned .s32 .s24 (sampleOf .s32 c) 2147483647 * 2 ^ 8 - sampleOf .s32 c| ≤ 2 ^ 8 := by
  have first := rnd31_unity_error (sampleOf_abs_le .s32 c)
  have second := rnd_nearest (rnd (sampleOf .s32 c * 2147483647) 31) (t := 8) (by decide)
  rw [aligned_s32_s24 le_rfl]
  refine (abs_sub_le _ (rnd (sampleOf .s32 c * 2147483647) 31) _).trans ?_
  rw [Nat.cast_ofNat]
  linarith

/-- At unity gain the aligned value is within 1 LSB of the sample at the sink's width
(42_datapath.md R173). -/
theorem aligned_unity_error (src snk : SampleFormat) (c : Nat) :
    |aligned src snk (sampleOf src c) 2147483647 * 2 ^ (sampleWidth src - sampleWidth snk)
        - sampleOf src c * 2 ^ (sampleWidth snk - sampleWidth src)|
      ≤ 2 ^ (sampleWidth src - sampleWidth snk) := by
  rcases row_kinds src snk with h | ⟨h, rfl | ⟨rfl, rfl⟩⟩
  · rw [Nat.sub_eq_zero_of_le h, pow_zero, mul_one]
    exact aligned_unity_error_of_le h c
  · rw [Nat.sub_eq_zero_of_le h.le, pow_zero, mul_one]
    exact aligned_unity_error_s16 h c
  · rw [Nat.sub_eq_zero_of_le h.le, pow_zero, mul_one]
    exact aligned_unity_error_s32_s24 c

/-! ### Monotonicity -/

theorem postAlign_mono (row : ShiftRow) {r r' : Int} (h : r ≤ r') : postAlign row r ≤ postAlign row r' := by
  have scale_pos : (0 : Int) < 2 ^ row.post := by positivity
  unfold postAlign
  split
  · exact rnd_mono _ h
  · exact mul_le_mul_of_nonneg_right h scale_pos.le
  · exact mul_le_mul_of_nonneg_right h scale_pos.le

/-- Every part of the conversion from the product on is monotone (42_datapath.md R174 (c)). -/
theorem conv_le_of_product_le (src snk : SampleFormat) {c c' m m' : Nat}
    (h : sampleOf src c * m ≤ sampleOf src c' * m') : conv hw src snk c m ≤ conv hw src snk c' m' := by
  have hworking : preAlign (shiftTable src snk) (sampleOf src c) * m ≤
      preAlign (shiftTable src snk) (sampleOf src c') * m' := by
    rw [preAlign_sampleOf, preAlign_sampleOf, mul_right_comm, mul_right_comm _ _ (m' : Int)]
    exact mul_le_mul_of_nonneg_right h (by positivity)
  rw [conv_eq_sat_aligned, conv_eq_sat_aligned]
  exact sat_mono (postAlign_mono _ (sat_mono (rnd_mono _ hworking)))

/-! ### Zero -/

theorem postAlign_zero (row : ShiftRow) : postAlign row 0 = 0 := by
  unfold postAlign
  split
  · exact rnd_zero _
  · exact zero_mul _
  · exact zero_mul _

/-- A product of 0 stays 0 through rounding and saturation (42_datapath.md R172). -/
theorem applyGain_eq_zero {w : Int} {m : Nat} (h : w * m = 0) (row : ShiftRow) : applyGain 31 row w m = 0 := by
  rw [applyGain, h, rnd_zero, sat_zero]

theorem conv_eq_zero {src : SampleFormat} {c m : Nat} (h : sampleOf src c * m = 0) (snk : SampleFormat) :
    conv hw src snk c m = 0 := by
  have hworking : preAlign (shiftTable src snk) (sampleOf src c) * m = 0 := by
    rw [preAlign_sampleOf, mul_right_comm, h, zero_mul]
  rw [conv_eq_sat_aligned, aligned, applyGain_eq_zero hworking, postAlign_zero, sat_zero]

theorem containerOf_zero (f : SampleFormat) : containerOf f 0 = 0 := by cases f <;> rfl

theorem leBytes_zero (n : Nat) : leBytes n 0 = List.replicate n 0#8 := by
  induction n with
  | zero => rfl
  | succ n ih => rw [leBytes, Nat.zero_div, ih]; rfl

/-! ### Intermediate values -/

theorem shiftTable_post_le (src snk : SampleFormat) : (shiftTable src snk).post ≤ 16 := by
  cases src <;> cases snk <;> decide

theorem shiftTable_pms_le (src snk : SampleFormat) : (shiftTable src snk).pms ≤ 16 := by
  cases src <;> cases snk <;> decide

/-- Post-alignment shifts left by 16 at most (42_datapath.md R171). -/
theorem postAlign_abs_le {row : ShiftRow} (hrow : row.post ≤ 16) (r : Int) :
    |postAlign row r| ≤ |r| * 2 ^ 16 := by
  have hshift : |r * 2 ^ row.post| ≤ |r| * 2 ^ 16 := by
    rw [abs_mul, abs_pow, abs_two]
    exact mul_le_mul_of_nonneg_left (pow_le_pow_right₀ one_le_two hrow) (abs_nonneg r)
  unfold postAlign
  split
  · exact (abs_rnd_le_abs r _).trans (le_mul_of_one_le_right (abs_nonneg r) (by norm_num))
  · exact hshift
  · exact hshift

/-! ### A step under the invariant -/

/-- Accepting a word never stops the machine (60_exceptions.md R248). -/
theorem State.accept_next (p : Port) (w : Packet) (s : State) : ∃ t, State.accept p w s = .next t :=
  (State.accept_effect p w s).imp fun _ => And.left

/-- The format codes the registers hold name formats (10_state.md R25). -/
theorem exists_formatOf {c : Nat} (h : c ≤ 2) : ∃ f, formatOf c = some f := by
  cases hf : formatOf c with
  | none => exact absurd (formatOf_eq_none.1 hf) (by omega)
  | some f => exact ⟨f, rfl⟩

/-- The engine's step never stops while a period runs (42_datapath.md R160, 44_dispatch_facade.md R216). -/
theorem State.engineStep_next {s : State} (h : Invariant s) (hbusy : s.busy = true) :
    ∃ t, s.engineStep = .next t := by
  by_cases hdone : s.frameIdx = s.frames ∨ s.channels = 0
  · exact ⟨_, State.engineStep_of_done hdone⟩
  · obtain ⟨hframe, hchannels⟩ := not_or.1 hdone
    have hdue : s.frameIdx.toNat < s.frames.toNat :=
      lt_of_le_of_ne (h.busyFrame hbusy) fun he => hframe (BitVec.eq_of_toNat_eq he)
    have hchannel : s.chIdx.toNat < hw.maxCh :=
      (h.busyChannel hbusy fun he => hchannels (BitVec.eq_of_toNat_eq he)).trans_le h.channelsBound
    obtain ⟨src, hsrc⟩ := exists_formatOf h.srcFmtNamed
    obtain ⟨snk, hsnk⟩ := exists_formatOf h.sinkFmtNamed
    have hroutine := (decode_routine_iff_of_busy h hbusy src snk).2 ⟨hsrc, hsnk⟩
    obtain ⟨hrun, -⟩ := State.engineStep_of_due hchannels hdue
    rw [hrun _ hroutine, exec_routine]
    exact ⟨_, (State.routineStep_next_iff hw src snk s _).2 ⟨_, channelIndex_of_lt hchannel, rfl⟩⟩

theorem State.machineTurn_next {s : State} (h : Invariant s) : ∃ t, s.machineTurn = .next t := by
  cases hbusy : s.busy with
  | true =>
    obtain ⟨t, ht⟩ := State.engineStep_next h hbusy
    exact ⟨t, (if_pos hbusy).trans ht⟩
  | false =>
    cases hheld : s.cmdHeld with
    | nil => exact ⟨s, State.machineTurn_of_quiet hbusy hheld⟩
    | cons w rest =>
      rw [State.machineTurn_of_held hbusy hheld]
      exact State.accept_next .cmd w _

/-- The one kind of turn that is refused: a peer's access to a window of the period in flight
(93_implementation_defined.md U2). -/
def PeerInWindow (s : State) : Prop :=
  ∃ a ts, (∃ b, s.turns = .peerWrite a b :: ts ∧ (s.inSourceWindow a = true ∨ s.inSinkWindow a = true)) ∨
    (s.turns = .peerRead a :: ts ∧ s.inSinkWindow a = true)

theorem PeerInWindow.busy {s : State} (h : PeerInWindow s) : s.busy = true := by
  cases hbusy : s.busy with
  | true => rfl
  | false => simp [PeerInWindow, State.inSourceWindow_of_idle hbusy, State.inSinkWindow_of_idle hbusy] at h

/-- Under the invariant a step goes on, or a peer reaches into a window. -/
theorem step_next_or_refused {s : State} (h : Invariant s) :
    (∃ t, step s = .next t) ∨ PeerInWindow s ∧ ∃ a, step s = .refused (.foreignWindowAccess a) := by
  match hturns : s.turns with
  | [] =>
    rw [step_of_machineMoves (.inr ⟨hturns, rfl⟩)]
    exact .inl (State.machineTurn_next { h with })
  | .machine :: ts =>
    rw [step_of_turn hturns]
    exact .inl (State.machineTurn_next { h with })
  | .cmd w :: ts => exact .inl ⟨_, step_of_turn hturns⟩
  | .cfg w :: ts =>
    rw [step_of_turn hturns]
    exact .inl (State.accept_next .cfg w _)
  | .peerWrite a b :: ts =>
    rw [step_of_turn hturns]
    by_cases hinside : s.inSourceWindow a = true ∨ s.inSinkWindow a = true
    · exact .inr ⟨⟨a, ts, .inl ⟨b, hturns, hinside⟩⟩, a,
        State.peerWrite_of_inside (s := { s with turns := ts }) b hinside⟩
    · simp only [not_or, Bool.not_eq_true] at hinside
      obtain ⟨hsrc, hsnk⟩ := hinside
      exact .inl ⟨_, State.peerWrite_of_outside (s := { s with turns := ts }) b hsrc hsnk⟩
  | .peerRead a :: ts =>
    rw [step_of_turn hturns]
    cases hinside : s.inSinkWindow a with
    | true =>
      exact .inr ⟨⟨a, ts, .inr ⟨hturns, hinside⟩⟩, a,
        State.peerRead_of_inside (s := { s with turns := ts }) hinside⟩
    | false => exact .inl ⟨_, State.peerRead_of_outside (s := { s with turns := ts }) hinside⟩
  | .reset :: ts => exact .inl ⟨_, step_of_turn hturns⟩

end Sys2Proof.Machine

namespace Sys2Proof.Proofs

open Sys2Proof.Machine Sys2Proof.Safety

/-- Settles O37: the sample is the value of a register of `W` bits, which bounds it. -/
theorem sampleExtraction : Obligations.SampleExtraction := by
  intro c
  refine ⟨sampleOf_eq_toInt .s16 c, sampleOf_eq_toInt .s24 c, sampleOf_eq_toInt .s32 c, fun d hd => ?_,
    fun f => sampleOf_mem f c⟩
  exact congrArg (sext 24) hd

/-- Settles O29: the aligned value is the closed form before its saturation, which acts only where the row
narrows. -/
theorem conversionClosedForms : Obligations.ConversionClosedForms := by
  intro src snk c m hm
  rcases row_kinds src snk with h | ⟨h, rfl | ⟨rfl, rfl⟩⟩
  · rw [conv_eq_aligned_of_le hm h, aligned_of_le hm h, closedForm_of_le h]
  · rw [conv_eq_sat_aligned, aligned_s16 hm, closedForm_s16 h]
    rfl
  · rw [conv_eq_sat_aligned, aligned_s32_s24 hm]
    rfl

/-- Settles O30: a product of 0 stays 0 in every step, and the container of 0 is all zero bytes. -/
theorem zeroGainGivesZero : Obligations.ZeroGainGivesZero := by
  refine ⟨fun src snk c => ?_, fun src snk c m hx => conv_eq_zero (by rw [hx, zero_mul]) snk⟩
  have hgain (w : Int) : applyGain 31 (shiftTable src snk) w 0 = 0 := applyGain_eq_zero (mul_zero w) _
  have hconv : conv hw src snk c 0 = 0 := conv_eq_zero (mul_zero _) snk
  refine ⟨mul_zero _, hgain _, ?_, hconv, ?_⟩
  · rw [hgain, postAlign_zero]
  · rw [hconv, containerOf_zero]
    exact leBytes_zero _

/-- Settles O31: the aligned value is that close, and saturation takes it no further away. -/
theorem unityWithinOneLsb : Obligations.UnityWithinOneLsb := by
  intro src snk c
  have hsrc := sampleWidth_pos src
  have hsnk := sampleWidth_pos snk
  have hpow : (2 : Int) ^ (sampleWidth snk - 1) * 2 ^ (sampleWidth src - sampleWidth snk) =
      2 ^ (sampleWidth src - 1) * 2 ^ (sampleWidth snk - sampleWidth src) := by
    rw [← pow_add, ← pow_add]; congr 1; omega
  obtain ⟨hlow, hhigh⟩ := abs_le.1 (sampleOf_abs_le src c)
  rw [conv_eq_sat_aligned]
  refine abs_sat_mul_sub_le (by positivity) ?_ ?_ (aligned_unity_error src snk c)
  · rw [neg_mul, hpow, ← neg_mul]
    exact mul_le_mul_of_nonneg_right hlow (by positivity)
  · rw [hpow]
    exact mul_le_mul_of_nonneg_right hhigh (by positivity)

/-- Settles O32: the product is monotone in the sample, and in the multiplier by the sample's sign. -/
theorem conversionMonotone : Obligations.ConversionMonotone := by
  intro src snk c c' m m'
  refine ⟨fun hx => conv_le_of_product_le src snk ?_, fun hm hx => conv_le_of_product_le src snk ?_,
    fun hm hx => conv_le_of_product_le src snk ?_⟩
  · exact mul_le_mul_of_nonneg_right hx (by omega)
  · exact mul_le_mul_of_nonneg_left (by omega) hx
  · exact mul_le_mul_of_nonpos_left (by omega) hx

/-- Settles O33: the aligned value is at most one past the maximum, and `le_rnd_iff` says from which
product on it is there. -/
theorem saturationOnlyOnePast : Obligations.SaturationOnlyOnePast := by
  refine ⟨fun src snk c m hm => ?_, fun c => ⟨?_, ?_, ?_⟩⟩
  · obtain ⟨hlow, hhigh⟩ := aligned_mem hm src snk c
    exact ⟨hhigh, hlow, fun h => (aligned_mem_of_le hm h c).2⟩
  · obtain ⟨-, hhigh⟩ := aligned_mem le_rfl .s24 .s16 c
    refine hhigh.ge_iff_eq.symm.trans ?_
    rw [aligned_s16 le_rfl, sampleWidth, sampleWidth, le_rnd_iff (by decide) (by decide)]
    omega
  · obtain ⟨-, hhigh⟩ := aligned_mem le_rfl .s32 .s16 c
    refine hhigh.ge_iff_eq.symm.trans ?_
    rw [aligned_s16 le_rfl, sampleWidth, sampleWidth, le_rnd_iff (by decide) (by decide)]
    omega
  · obtain ⟨-, hhigh⟩ := aligned_mem le_rfl .s32 .s24 c
    refine hhigh.ge_iff_eq.symm.trans ?_
    rw [aligned_s32_s24 le_rfl, sampleWidth, le_rnd_iff (by decide) (by decide),
      le_rnd_iff (by decide) (by decide)]
    omega

/-- Settles O34: each value is bounded from the one before it. -/
theorem noIntermediateOverflow : Obligations.NoIntermediateOverflow := by
  intro src snk c m hm row w p t r a
  have hw : |w| ≤ 2 ^ 31 := preAlign_abs_le src snk c
  have hp : |p| ≤ 2 ^ 31 * (2 ^ 31 - 1) := abs_mul_gain_le hm hw
  have hhalf : (2 : Int) ^ (t - 1) ≤ 2 ^ 46 :=
    pow_le_pow_right₀ one_le_two (Nat.sub_le_of_le_add (Nat.add_le_add_left (shiftTable_pms_le src snk) 31))
  have hr : |r| ≤ 2 ^ 31 - 1 := (congrArg abs (applyGain_eq_rnd hm hw row)).trans_le (abs_rnd_gain_le hm hw _)
  have ha : |a| ≤ |r| * 2 ^ 16 := postAlign_abs_le (shiftTable_post_le src snk) r
  exact ⟨hw, hp, by omega, hhalf, by omega, hr, ha, by omega⟩

/-- Settles O36: the closed form rounds twice. In the example the first rounding makes a tie of a value
below one. -/
theorem doubleRoundingS32S24 : Obligations.DoubleRoundingS32S24 := by
  have hforms (c m : Nat) (hm : m ≤ 2147483647) :
      conv hw .s32 .s24 c m = sat 24 (rnd (rnd (sampleOf .s32 c * m) 31) 8) :=
    conversionClosedForms .s32 .s24 c m hm
  have hfirst : rnd (255 * 2 ^ 30) 31 = 128 := rnd_tie (t := 31) (k := 127) (by decide) (by decide)
  have hsecond : rnd 128 8 = 1 := rnd_tie (t := 8) (k := 0) (by decide) le_rfl
  have honce : rnd (255 * 2 ^ 30) 39 = 0 := by rw [rnd_of_nonneg (by decide) (by decide)]; rfl
  refine ⟨hforms, hfirst, hsecond, honce, ?_⟩
  have hproduct : sampleOf .s32 255 * ((2 ^ 30 : Nat) : Int) = 255 * 2 ^ 30 := by decide
  rw [hforms _ _ (by decide), hproduct, hfirst, hsecond]
  rfl

/-- Settles O39: a sample step takes its gain from `ACT[CH_IDX]`, and its frame holds no gain register. -/
theorem channelsIndependent : Obligations.ChannelsIndependent := by
  intro src snk s t hc g sc act hact hstep
  rw [exec_routine, State.routineStep_next_iff, channelIndex_of_lt hc] at hstep
  obtain ⟨_, ⟨⟩, rfl⟩ := hstep
  refine ⟨?_, ?_⟩
  · rw [exec_routine, State.routineStep_next_iff]
    refine ⟨_, channelIndex_of_lt hc, ?_⟩
    have hsample := State.sampleStep_withGains s g sc act src snk ⟨s.chIdx.toNat, hc⟩ hact
    exact (State.nextSample_withGains _ g sc act).symm.trans (congrArg State.nextSample hsample.symm)
  · obtain ⟨m, v, w, fi, ci, he⟩ := State.sampleStep_nextSample_frame hw src snk ⟨s.chIdx.toNat, hc⟩ s
    rw [he]
    exact ⟨rfl, rfl, rfl⟩

/-- Settles O52: every turn goes on but a peer's in a window. -/
theorem noStepStops : Obligations.NoStepStops := by
  intro s h
  rcases step_next_or_refused h with ⟨t, ht⟩ | ⟨hpeer, a, hrefused⟩
  · rw [ht]
    exact ⟨nofun, nofun⟩
  · rw [hrefused]
    exact ⟨nofun, fun _ _ => ⟨hpeer.busy, hpeer⟩⟩

end Sys2Proof.Proofs
end

section
/-! PROOFS. The statement about the completion of a period (44_dispatch_facade.md R216): the run and the memory
it leaves are `runs_process`'s. -/

namespace Sys2Proof.Proofs

open Sys2Proof.Machine Sys2Proof.Safety

/-- Settles O56: `runs_process` names the end state field by field over `s`, so each register is read off it;
the bytes outside the sink window are `PeriodMemory.outside`. -/
theorem periodCompletes : Obligations.PeriodCompletes := by
  intro s w rest f src snk hinv hturns hidle hheld hw hresolved hvsrc hvsnk hsrc hsnk n
  obtain ⟨m, hmem, hruns⟩ := runs_process hinv hturns hidle hheld hw hresolved hvsrc hvsnk hsrc hsnk
  have hresponse : s.cmdOut ++ [responseWord .ok 0] = s.cmdOut ++ [0#64] := by rw [responseWord_ok_zero]
  exact ⟨_, hruns, rfl, hresponse, rfl, rfl, hturns, rfl, rfl, rfl, rfl, rfl, rfl, hresolved, rfl, rfl, rfl,
    hmem.outside⟩

end Sys2Proof.Proofs
end

section
/-! PROOFS. The statements about the stream commands (44_dispatch_facade.md): STRMCFG, STRMFREE, NEGOTIATE and the
completion step. First the rules they cite, then the statements. -/

namespace Sys2Proof.Machine

open Sys2Proof.Safety

/-! ### Responses on CMD -/

theorem State.raise_of_cmd {s : State} (h : s.port = .cmd) (c : ResultCode) :
    s.raise c = .next (answered .cmd (responseWord c 0) s) := by
  rw [State.raise, State.respond_eq_answered, h]

theorem State.done_of_cmd {s : State} (h : s.port = .cmd) : s.done = .next (answered .cmd 0#64 s) := by
  rw [State.done, State.respond_eq_answered, h, responseWord_ok_zero]

/-- The completion of a period answers on CMD (44_dispatch_facade.md R216). -/
theorem State.completePeriod_eq_answered (s : State) :
    s.completePeriod = answered .cmd 0#64 { s with busy := false } := rfl

/-! ### STRMCFG and STRMFREE -/

theorem exec_strmcfg_of_le {s : State} {n : BitVec 8} (h : s.port = .cmd) (hn : n.toNat ≤ hw.maxCh) :
    exec (.strmcfg n) s = .next (answered .cmd 0#64 { s with channels := n, resolved := false }) :=
  (State.onCmd_of_cmd h _).trans ((if_neg (not_lt.2 hn)).trans (State.done_of_cmd h))

theorem exec_strmcfg_of_gt {s : State} {n : BitVec 8} (h : s.port = .cmd) (hn : hw.maxCh < n.toNat) :
    exec (.strmcfg n) s = .next (answered .cmd (responseWord .badArg 0) s) :=
  (State.onCmd_of_cmd h _).trans ((if_pos hn).trans (State.raise_of_cmd h .badArg))

theorem exec_strmfree_of_cmd {s : State} (h : s.port = .cmd) :
    exec .strmfree s = .next (answered .cmd 0#64 { s with channels := 0, resolved := false }) :=
  (State.onCmd_of_cmd h _).trans (State.done_of_cmd h)

/-! ### NEGOTIATE -/

/-- The check of NEGOTIATE: a code that names no format (30_encoding.md R93). -/
theorem formatOf_isNone_or_iff {a b : Nat} :
    ((formatOf a).isNone || (formatOf b).isNone) = true ↔ 2 < a ∨ 2 < b := by
  rw [Bool.or_eq_true, Option.isNone_iff_eq_none, Option.isNone_iff_eq_none, formatOf_eq_none, formatOf_eq_none]

theorem exec_negotiate_of_supported {s : State} {a b : BitVec 8} (h : s.port = .cmd) (ha : a.toNat ≤ 2)
    (hb : b.toNat ≤ 2) :
    exec (.negotiate a b) s =
      .next (answered .cmd 0#64
        { s with
          srcFmt := a.setWidth 2
          sinkFmt := b.setWidth 2
          routine := BitVec.ofNat 4 (3 * a.toNat + b.toNat)
          resolved := true }) := by
  have hnamed : ¬((formatOf a.toNat).isNone || (formatOf b.toNat).isNone) = true := by
    rw [formatOf_isNone_or_iff]; omega
  exact (State.onCmd_of_cmd h _).trans ((if_neg hnamed).trans (State.done_of_cmd h))

theorem exec_negotiate_of_unsupported {s : State} {a b : BitVec 8} (h : s.port = .cmd)
    (hab : 2 < a.toNat ∨ 2 < b.toNat) :
    exec (.negotiate a b) s = .next (answered .cmd (responseWord .unsupportedFormatPair 0) s) :=
  (State.onCmd_of_cmd h _).trans
    ((if_pos (formatOf_isNone_or_iff.2 hab)).trans (State.raise_of_cmd h .unsupportedFormatPair))

/-- A stored format code comes back from the operand that names it (10_state.md R25). -/
theorem setWidth_format_code (f : BitVec 2) : (f.setWidth 8).setWidth 2 = f := by
  rw [BitVec.setWidth_setWidth_of_le f (by decide), BitVec.setWidth_eq]

theorem toNat_format_operand (f : BitVec 2) : (f.setWidth 8).toNat = f.toNat :=
  BitVec.toNat_setWidth_of_le (by decide)

/-- A supported format's code fits the format register (10_state.md R25). -/
theorem toNat_format_register {a : BitVec 8} (ha : a.toNat ≤ 2) : (a.setWidth 2).toNat = a.toNat := by
  rw [BitVec.toNat_setWidth]; omega

/-- A supported pair's entry of the dispatch table fits `ROUTINE` (44_dispatch_facade.md R213). -/
theorem toNat_dispatch_entry {a b : Nat} (ha : a ≤ 2) (hb : b ≤ 2) :
    (BitVec.ofNat 4 (3 * a + b)).toNat = 3 * a + b := by
  rw [BitVec.toNat_ofNat]; omega

/-- On a resolved stream `ROUTINE` is the entry of the pair held (10_state.md R26). -/
theorem routine_eq_of_resolved {s : State} (hinv : Invariant s) (hr : s.resolved = true) :
    BitVec.ofNat 4 (3 * s.srcFmt.toNat + s.sinkFmt.toNat) = s.routine := by
  rw [← hinv.routineIs hr, BitVec.ofNat_toNat, BitVec.setWidth_eq]

end Sys2Proof.Machine

namespace Sys2Proof.Proofs

open Sys2Proof.Machine Sys2Proof.Safety

/-- Settles O18: each of the four registers NEGOTIATE writes gets the value it has, the format registers as the
codes they hold and `ROUTINE` by the invariant of a resolved stream. -/
theorem renegotiateIdempotent : Obligations.RenegotiateIdempotent := by
  intro s hinv hport hresolved
  have hsrc : (s.srcFmt.setWidth 8).toNat ≤ 2 := by rw [toNat_format_operand]; exact hinv.srcFmtNamed
  have hsnk : (s.sinkFmt.setWidth 8).toNat ≤ 2 := by rw [toNat_format_operand]; exact hinv.sinkFmtNamed
  rw [exec_negotiate_of_supported hport hsrc hsnk, setWidth_format_code, setWidth_format_code,
    toNat_format_operand, toNat_format_operand, routine_eq_of_resolved hinv hresolved, ← hresolved]

/-- Settles O9: with no sample left the engine's step is the completion. -/
theorem stepCompletesPeriod : Obligations.StepCompletesPeriod := by
  intro s ts hmoves hbusy hdone
  calc step s = State.engineStep { s with turns := ts } := step_of_busy hmoves hbusy
    _ = .next (State.completePeriod { s with turns := ts }) := State.engineStep_of_done hdone
    _ = .next (answered .cmd 0#64 { s with turns := ts, busy := false }) := by
      rw [State.completePeriod_eq_answered]

/-- Settles O15: the count is checked against `MAX_CH` = 8. -/
theorem strmcfgResult : Obligations.StrmcfgResult := by
  intro s n hport
  split
  · next hle => exact exec_strmcfg_of_le hport hle
  · next hgt => exact exec_strmcfg_of_gt hport (not_le.1 hgt)

/-- Settles O16: STRMFREE has no check but the port's. -/
theorem strmfreeResult : Obligations.StrmfreeResult := fun _ => exec_strmfree_of_cmd

/-- Settles O17: a supported pair's codes fit the two-bit registers and its entry the four-bit one. -/
theorem negotiateResult : Obligations.NegotiateResult := by
  intro s a b hport
  exact ⟨fun ⟨ha, hb⟩ => ⟨_, _, _, toNat_format_register ha, toNat_format_register hb,
    toNat_dispatch_entry ha hb, exec_negotiate_of_supported hport ha hb⟩, exec_negotiate_of_unsupported hport⟩

end Sys2Proof.Proofs
end

section
/-! PROOFS. The statement about failed commands (60_exceptions.md R248). First the rules it cites: what a
response word carries, and what a command leaves on its port; then the statement. -/

namespace Sys2Proof.Machine

open Sys2Proof.Safety

/-! ### What a command leaves on its port -/

/-- Which port the model notes for the word being accepted is no response (log 7). -/
theorem out_port (q p : Port) (s : State) : out q { s with port := p } = out q s := by cases q <;> rfl

/-- Bits 39:32 of a response are its code (30_encoding.md R96). -/
@[simp] theorem codeOf_responseWord (c : ResultCode) (d : Word) : codeOf (responseWord c d) = codeNumber c := by
  rw [codeOf, responseWord, BitVec.extractLsb'_append_eq_of_le (by decide)]
  exact BitVec.extractLsb'_append_eq_right

theorem out_respond (s : State) (c : ResultCode) (d : Word) :
    out s.port (s.respond c d) = out s.port s ++ [responseWord c d] := by
  rw [State.respond_eq_answered, out_answered_self]

/-- An update that is no response itself, then a response. -/
theorem out_respond_of_update {s u : State} (hport : u.port = s.port) (hcmd : u.cmdOut = s.cmdOut)
    (hcfg : u.cfgOut = s.cfgOut) (c : ResultCode) (d : Word) :
    out s.port (u.respond c d) = out s.port s ++ [responseWord c d] := by
  have hout : out s.port u = out s.port s := by cases s.port <;> assumption
  rw [← hport, out_respond, hport, hout]

/-- A command raises a failure, or answers `OK`, or, an accepted PROCESS, answers nothing yet. -/
theorem CommandEffect.response_cases {i : Instr} {s t : State} (h : CommandEffect i s t) :
    (∃ c, t = s.respond c 0) ∨ (∃ d, out s.port t = out s.port s ++ [responseWord .ok d]) ∨
      out s.port t = out s.port s := by
  cases h with
  | failed c => exact .inl ⟨c, rfl⟩
  | read d => exact .inr (.inl ⟨d, out_respond s .ok d⟩)
  | process => exact .inr (.inr (by cases s.port <;> rfl))
  | strmcfg | strmfree | negotiate | configure | rbset | advance =>
    exact .inr (.inl ⟨0, out_respond_of_update (by simp) (by simp) (by simp) .ok 0⟩)

/-- The same for a word: an illegal one raises a failure too (30_encoding.md R98). -/
theorem State.accept_response_cases {p : Port} {w : Packet} {s t : State} (h : State.accept p w s = .next t) :
    (∃ c, t = { s with port := p }.respond c 0) ∨ (∃ d, out p t = out p s ++ [responseWord .ok d]) ∨
      out p t = out p s := by
  obtain ⟨-, ht⟩ | ⟨i, -, he⟩ := State.accept_cases h
  · exact .inl ⟨.badCommand, ht⟩
  · simpa only [out_port] using he.response_cases

end Sys2Proof.Machine

namespace Sys2Proof.Proofs

open Sys2Proof.Machine Sys2Proof.Safety

/-- Settles O14: only a raised failure answers with a code other than 0, and it is the response alone. -/
theorem failedCommandChangesNothing : Obligations.FailedCommandChangesNothing := by
  intro p w r s t haccept hanswer hcode
  obtain ⟨c, rfl⟩ | ⟨d, hok⟩ | hnone := State.accept_response_cases haccept
  · have hraised : out p ({ s with port := p }.respond c 0) = out p s ++ [responseWord c 0] := by
      simpa only [out_port] using out_respond { s with port := p } c 0
    obtain rfl : responseWord c 0 = r := List.append_singleton_inj.1 (hraised.symm.trans hanswer) |>.2
    exact State.respond_eq_answered _ c 0
  · obtain rfl : responseWord .ok d = r := List.append_singleton_inj.1 (hok.symm.trans hanswer) |>.2
    exact absurd (codeOf_responseWord .ok d) hcode
  · exact absurd (List.self_eq_append_right.1 (hnone.symm.trans hanswer)) (List.cons_ne_nil r [])

end Sys2Proof.Proofs
end

section
/-! PROOFS. The statement about a quiescent machine (70_reset_and_hazards.md R282): a step leaves it as it is,
so every run does. -/

namespace Sys2Proof.Machine

open Sys2Proof.Safety

/-- With no turn listed the machine itself moves, and finds neither a period to run nor a word to accept. -/
theorem step_of_quiescent {s : State} (hturns : s.turns = []) (hidle : s.busy = false) (hheld : s.cmdHeld = []) :
    step s = .next s :=
  calc step s = State.machineTurn { s with turns := [] } := step_of_machineMoves (.inr ⟨hturns, rfl⟩)
    _ = s.machineTurn := by rw [← hturns]
    _ = .next s := State.machineTurn_of_quiet hidle hheld

/-- A state that a step leaves as it is stays for a run of any length. -/
theorem runs_of_step_self {s : State} (h : step s = .next s) (k : Nat) : runs k s s := by
  induction k with
  | zero => rfl
  | succ k ih => exact ⟨s, h, ih⟩

end Sys2Proof.Machine

namespace Sys2Proof.Proofs

open Sys2Proof.Machine Sys2Proof.Safety

/-- Settles O12: a quiescent state is a fixed point of the step. -/
theorem quiescentForEver : Obligations.QuiescentForEver :=
  fun k _ hturns hidle hheld => runs_of_step_self (step_of_quiescent hturns hidle hheld) k

end Sys2Proof.Proofs
end
